-- ==== Sys2Proof/Word.lean ====
section
/-! DEFINITION. The words of the block and their widths (spec/00_scope.md R6, R7). -/

namespace Sys2Proof

/-- A command word, and the register `ERRCMD` (R6, R25, R55). -/
abbrev Word := BitVec 32

/-- A byte of `BUF`, and an output character code (R6). -/
abbrev Byte := BitVec 8

/-- The `OPERAND` field of a command word (R55, R56). -/
abbrev Operand := BitVec 28

/-- A byte index on the write port (R34, R38). -/
abbrev BufAddr := BitVec 24

/-- A 5-bit group value `v` (R6, R72). -/
abbrev Group := BitVec 5

/-- A bit offset inside a byte, the `j` of R68. -/
abbrev BitOffset := BitVec 3

end Sys2Proof
end

