-- ==== Sys2Proof/Syntax.lean ====
section
/-! DEFINITION. The command words as syntax: one constructor per row of spec/opcode_table.json (spec/30_encoding.md R57). -/

namespace Sys2Proof

/-- The commands. Each constructor is one row of the opcode table; its argument is the `OPERAND` field where the row leaves that
field open. The fourteen `illegal…` rows together are the result `ILLEGAL` of R58. -/
inductive Instr where
  /-- `SETLEN n`: set the buffer length to `n` bytes (R96). -/
  | setlen (n : Operand)
  /-- `ENC n`: encode the first `n` bits (R76). -/
  | enc (n : Operand)
  /-- `ENCF`: encode the whole buffer (R88). -/
  | encf
  /-- Opcode 0x3 with the non-zero operand `x` (R105). -/
  | illegalEncf (x : Operand)
  /-- Reserved opcode 0x0 (R104). -/
  | illegal0 (x : Operand)
  /-- Reserved opcode 0x4 (R104). -/
  | illegal4 (x : Operand)
  /-- Reserved opcode 0x5 (R104). -/
  | illegal5 (x : Operand)
  /-- Reserved opcode 0x6 (R104). -/
  | illegal6 (x : Operand)
  /-- Reserved opcode 0x7 (R104). -/
  | illegal7 (x : Operand)
  /-- Reserved opcode 0x8 (R104). -/
  | illegal8 (x : Operand)
  /-- Reserved opcode 0x9 (R104). -/
  | illegal9 (x : Operand)
  /-- Reserved opcode 0xA (R104). -/
  | illegalA (x : Operand)
  /-- Reserved opcode 0xB (R104). -/
  | illegalB (x : Operand)
  /-- Reserved opcode 0xC (R104). -/
  | illegalC (x : Operand)
  /-- Reserved opcode 0xD (R104). -/
  | illegalD (x : Operand)
  /-- Reserved opcode 0xE (R104). -/
  | illegalE (x : Operand)
  /-- Reserved opcode 0xF (R104). -/
  | illegalF (x : Operand)
  deriving DecidableEq, Repr

/-- Is the row one of those that R58 calls `ILLEGAL`? -/
def Instr.isIllegal : Instr → Bool
  | .setlen _ => false
  | .enc _ => false
  | .encf => false
  | .illegalEncf _ => true
  | .illegal0 _ => true
  | .illegal4 _ => true
  | .illegal5 _ => true
  | .illegal6 _ => true
  | .illegal7 _ => true
  | .illegal8 _ => true
  | .illegal9 _ => true
  | .illegalA _ => true
  | .illegalB _ => true
  | .illegalC _ => true
  | .illegalD _ => true
  | .illegalE _ => true
  | .illegalF _ => true

end Sys2Proof
end

