-- ==== Sys2Proof/WellFormed.lean ====
section
/-! DEFINITION. Which terms of `Instr` stand for a word (spec/30_encoding.md R57, R58). -/

namespace Sys2Proof

/-- A row stands for a word, with one exception: opcode 0x3 with operand 0 is `ENCF`, which takes precedence over the `ILLEGAL`
row of that opcode (R57, R105). -/
def Instr.wellFormed : Instr → Bool
  | .illegalEncf x => x != 0
  | .setlen _ => true
  | .enc _ => true
  | .encf => true
  | .illegal0 _ => true
  | .illegal4 _ => true
  | .illegal5 _ => true
  | .illegal6 _ => true
  | .illegal7 _ => true
  | .illegal8 _ => true
  | .illegal9 _ => true
  | .illegalA _ => true
  | .illegalB _ => true
  | .illegalC _ => true
  | .illegalD _ => true
  | .illegalE _ => true
  | .illegalF _ => true

end Sys2Proof
end

