-- ==== Sys2Proof/Decode.lean ====
section
/-! DEFINITION. The command decoder, total on every word, and the encoder (spec/30_encoding.md R55 to R60, R63). -/

namespace Sys2Proof

/-- The `OPC` field, bits 31 to 28 (R55). -/
def opcField (w : Word) : BitVec 4 := w.extractLsb' 28 4

/-- The `OPERAND` field, bits 27 to 0, an unsigned number (R55, R56). -/
def operandField (w : Word) : Operand := w.extractLsb' 0 28

/-- Opcode 0x3: `ENCF` when the operand is zero, else the `ILLEGAL` row of that opcode (R57, R105). -/
def decodeOpc3 (x : Operand) : Instr :=
  if x = 0 then .encf else .illegalEncf x

/-- The decoder of R58. Every word is exactly one row of the table; a reserved word is rejected under the name of its own
`ILLEGAL` row. -/
def decodeFields (opc : BitVec 4) (n : Operand) : Instr :=
  if opc = 0x1 then .setlen n
  else if opc = 0x2 then .enc n
  else if opc = 0x3 then decodeOpc3 n
  else if opc = 0x0 then .illegal0 n
  else if opc = 0x4 then .illegal4 n
  else if opc = 0x5 then .illegal5 n
  else if opc = 0x6 then .illegal6 n
  else if opc = 0x7 then .illegal7 n
  else if opc = 0x8 then .illegal8 n
  else if opc = 0x9 then .illegal9 n
  else if opc = 0xA then .illegalA n
  else if opc = 0xB then .illegalB n
  else if opc = 0xC then .illegalC n
  else if opc = 0xD then .illegalD n
  else if opc = 0xE then .illegalE n
  else .illegalF n

/-- `Decode(w)` of R58. -/
def decode (w : Word) : Instr := decodeFields (opcField w) (operandField w)

/-- The opcode of a row (R57). -/
def Instr.opc : Instr → BitVec 4
  | .setlen _ => 0x1
  | .enc _ => 0x2
  | .encf => 0x3
  | .illegalEncf _ => 0x3
  | .illegal0 _ => 0x0
  | .illegal4 _ => 0x4
  | .illegal5 _ => 0x5
  | .illegal6 _ => 0x6
  | .illegal7 _ => 0x7
  | .illegal8 _ => 0x8
  | .illegal9 _ => 0x9
  | .illegalA _ => 0xA
  | .illegalB _ => 0xB
  | .illegalC _ => 0xC
  | .illegalD _ => 0xD
  | .illegalE _ => 0xE
  | .illegalF _ => 0xF

/-- The operand of a row; that of `ENCF` is zero (R57). -/
def Instr.operand : Instr → Operand
  | .setlen n => n
  | .enc n => n
  | .encf => 0
  | .illegalEncf x => x
  | .illegal0 x => x
  | .illegal4 x => x
  | .illegal5 x => x
  | .illegal6 x => x
  | .illegal7 x => x
  | .illegal8 x => x
  | .illegal9 x => x
  | .illegalA x => x
  | .illegalB x => x
  | .illegalC x => x
  | .illegalD x => x
  | .illegalE x => x
  | .illegalF x => x

/-- The word with these two fields, `{OPC, OPERAND}` (R55). -/
def commandWord (opc : BitVec 4) (n : Operand) : Word := opc ++ n

/-- The word of a command: `word(SETLEN n)`, `word(ENC n)`, `word(ENCF)` of R63, and for an `ILLEGAL` row the word it stands for. -/
def encode (i : Instr) : Word := commandWord i.opc i.operand

/-- The `match` column of a row of the opcode table (R57). -/
def Instr.rowMatch (i : Instr) : Word := commandWord i.opc 0

/-- The `mask` column of a row of the opcode table: all bits for `ENCF`, the opcode's bits for every other row (R57). -/
def Instr.rowMask : Instr → Word
  | .encf => 0xFFFFFFFF
  | .setlen _ => 0xF0000000
  | .enc _ => 0xF0000000
  | .illegalEncf _ => 0xF0000000
  | .illegal0 _ => 0xF0000000
  | .illegal4 _ => 0xF0000000
  | .illegal5 _ => 0xF0000000
  | .illegal6 _ => 0xF0000000
  | .illegal7 _ => 0xF0000000
  | .illegal8 _ => 0xF0000000
  | .illegal9 _ => 0xF0000000
  | .illegalA _ => 0xF0000000
  | .illegalB _ => 0xF0000000
  | .illegalC _ => 0xF0000000
  | .illegalD _ => 0xF0000000
  | .illegalE _ => 0xF0000000
  | .illegalF _ => 0xF0000000

/-- The word an opcode-table row of `nbits` bits shows on the command port, the bits above `nbits` zero (R60: one transfer;
DEDUCED, log entry 12). -/
def tableWord (nbits w : Nat) : Word := BitVec.ofNat 32 (w % 2 ^ nbits)

/-- The command read from a word numbered as the opcode table numbers its bits. A command is 32 bits and no more (R60). -/
def decodeTableWord (nbits w : Nat) : Option Instr :=
  if nbits ≤ 32 then some (decode (tableWord nbits w)) else none

end Sys2Proof
end

