-- ==== Sys2Proof/Config.lean ====
section
/-! DEFINITION. What an implementation of the block fixes: `MAX_LEN` (spec/00_scope.md R5, decision D4). -/

namespace Sys2Proof

/-- The parameters of one block. `lastIndex` is the largest byte index of `BUF`, that is `MAX_LEN - 1`: its type is the
constraint `1 <= MAX_LEN <= 2^24 - 1` of R5, so that no other value can be written down. The configuration stands in the state, so
that a statement about every state is a statement about every `MAX_LEN`. -/
structure Config where
  lastIndex : Fin (2 ^ 24 - 1)
  deriving DecidableEq, Repr

/-- `MAX_LEN`: how many bytes `BUF` holds and the largest legal `LEN` (R5). -/
def Config.maxLen (c : Config) : Nat := c.lastIndex.val + 1

/-- The block of the spec's own programs, `MAX_LEN = 64` (spec/95_test_vectors.md section 3).
DESIGN CHOICE (log entry 1): the spec leaves `MAX_LEN` open; `State.reset` has to name one. -/
def Config.block64 : Config := ⟨⟨63, by decide⟩⟩

end Sys2Proof
end

