-- ==== Sys2Proof/Machine/State.lean ====
section
/-! DEFINITION. The state of the block as plain data, its reset value, and the reasons a step can stop
(spec/10_state.md R13 to R33, spec/20_memory.md R36, R44, spec/30_encoding.md R61). -/

namespace Sys2Proof.Machine

/-- The sequencer's phase (R18). The encoding 3 is never written and has no constructor (DEDUCED, log entry 9). -/
inductive Phase where
  /-- `0`: a command may be accepted. -/
  | idle
  /-- `1`: an encode is emitting characters. -/
  | busy
  /-- `2`: a contract violation has stopped the block. -/
  | fault
  deriving DecidableEq, Repr

/-- The cause `ERRCODE` holds (R24). -/
inductive ErrCode where
  /-- `0`: no fault. -/
  | none
  /-- `1`: `ENC` asked for more bits than the buffer holds (R103). -/
  | insufficientInput
  /-- `2`: the word is no command (R104, R105). -/
  | illegalCommand
  /-- `3`: `SETLEN` asked for more bytes than `MAX_LEN` (R106). -/
  | lenRange
  deriving DecidableEq, Repr

/-- What the host drives on the input ports at one clock edge (R61). -/
structure Inputs where
  rst : Bool
  cmdValid : Bool
  cmdData : Word
  bufWe : Bool
  bufAddr : BufAddr
  bufWdata : Byte
  outReady : Bool
  deriving DecidableEq, Repr

/-- The inputs no host action names: inactive, with `out_ready = 1` (R64). DESIGN CHOICE (log entry 3): these are also what the host
drives past the end of its schedule. -/
def Inputs.inactive : Inputs where
  rst := false
  cmdValid := false
  cmdData := 0
  bufWe := false
  bufAddr := 0
  bufWdata := 0
  outReady := true

/-- The written bytes of `BUF`: (index, byte) pairs, indices strictly rising. An index that is not listed is *unwritten* and
holds no value (R44). -/
abbrev Memory := List Host.Cell

/-- The canonical form of a memory: indices strictly rise. No entry can equal what an unlisted index reads as, since that is no
value at all. -/
abbrev Memory.wf (m : Memory) : Prop := m.Pairwise (fun x y => x.1 < y.1)

/-- The state of the block (R13), with the model's `OUTLOG` (R32), the implementation's parameter `MAX_LEN` (R5) and what the host
drives at the coming edges (R12, R61). -/
structure State where
  /-- `PHASE` (R18). -/
  phase : Phase
  /-- `LEN`, the buffer length in bytes (R19). -/
  len : BitVec 24
  /-- `BITS`, the bit count of the encode in progress or last accepted (R20). -/
  bits : BitVec 28
  /-- `P`, the bit cursor (R21). -/
  p : BitVec 28
  /-- `OUTCNT`, the characters transferred by the current or last encode (R22). -/
  outcnt : BitVec 25
  /-- `DONE` (R23). -/
  done : Bool
  /-- `ERRCODE` (R24). -/
  errcode : ErrCode
  /-- `ERRCMD`, the word whose acceptance caused the fault (R25). -/
  errcmd : Word
  /-- `BUF` (R30, R36). -/
  buf : Memory
  /-- `OUTLOG`, the codes transferred since the last accepted encode, oldest first (R32; the model's, not the hardware's). -/
  outlog : List Byte
  /-- The block's parameters; no step changes them (R5; the model's own, DESIGN CHOICE, log entry 1). -/
  cfg : Config
  /-- What the host drives at the coming clock edges, next edge first; after the last entry the host drives
  `Inputs.inactive` (R61, R64; the model's own, DESIGN CHOICE, log entries 2 and 3). -/
  cycles : List Inputs
  deriving DecidableEq, Repr

/-- Why the machine stops. Both are the model's own: a hardware fault is the phase `FAULT`, a next state (R111, R112). -/
inductive Fault where
  /-- `UninitRead(i)` of R111. Raised by the output step when it reads `BUF[i]` and that byte is unwritten since the last reset.
  Safe: the hardware goes on with an unspecified byte, so claims about such a run become unprovable. -/
  | uninitRead (i : Nat)
  /-- Raised by the output step when it reads `BUF[i]` with `i >= MAX_LEN`, a byte that does not exist (R34, R36). Safe: no state a
  run reaches raises it, since every read lies below `LEN <= MAX_LEN` (R84). -/
  | noSuchByte (i : Nat)
  deriving DecidableEq, Repr

/-- Why an instruction has no meaning. -/
inductive Refusal where
  /-- An instruction of the opcode table without a meaning in this model: raised by `exec` alone. Safe. No arm of `exec` answers it. -/
  | notModelled (mnemonic : String)
  deriving DecidableEq, Repr

/-- The reset state of R33 on a block with parameters `c`, the host driving `cs` from then on. -/
def State.resetWith (c : Config) (cs : List Inputs) : State where
  phase := .idle
  len := 0
  bits := 0
  p := 0
  outcnt := 0
  done := false
  errcode := .none
  errcmd := 0
  buf := []
  outlog := []
  cfg := c
  cycles := cs

/-- The machine right after reset (R33, R122, R124), `MAX_LEN = 64` and nothing scheduled by the host (DESIGN CHOICE, log
entries 1, 2 and 6). -/
def State.reset : State := State.resetWith Config.block64 []

end Sys2Proof.Machine
end

