-- ==== Sys2Proof/Machine/Ops.lean ====
section
/-! DEFINITION. The named operations over the buffer and the registers: byte reads and writes of `BUF`
(spec/20_memory.md R36 to R40, R45), fault entry and reset (spec/60_exceptions.md R112, spec/70_reset_and_hazards.md R122). -/

namespace Sys2Proof.Machine

/-- The byte a memory lists at index `a`, if it lists one. -/
def Memory.read : Memory → Nat → Option Byte
  | [], _ => none
  | (k, b) :: m, a => if k = a then some b else Memory.read m a

/-- Set the byte at index `a`, keeping the indices in rising order. -/
def Memory.write : Memory → Nat → Byte → Memory
  | [], a, b => [(a, b)]
  | (k, c) :: m, a, b =>
    if a < k then (a, b) :: (k, c) :: m
    else if a = k then (a, b) :: m
    else (k, c) :: Memory.write m a b

/-- `BufRead(i)` of R36: the byte, or `UninitRead(i)` when it is unwritten (R45). An index at or past `MAX_LEN` names no byte (R34).
DESIGN CHOICE, safe (log entries 4 and 5): both are stops of the model. -/
def bufRead (s : State) (i : Nat) : Except Fault Byte :=
  if s.cfg.maxLen ≤ i then .error (.noSuchByte i)
  else
    match Memory.read s.buf i with
    | some b => .ok b
    | none => .error (.uninitRead i)

/-- `BufWrite(i, b)` of R36. -/
def bufWrite (s : State) (i : Nat) (b : Byte) : State :=
  { s with buf := Memory.write s.buf i b }

/-- Is the write port's write effective at this edge? The four conditions of R39, on the state before the edge. -/
def writeEffective (s : State) (inp : Inputs) : Bool :=
  inp.bufWe && !inp.rst && decide (s.phase = .idle) && decide (inp.bufAddr.toNat < s.cfg.maxLen)

/-- The write port at one edge: an effective write stores its byte (R38, R39), any other does nothing (R40). -/
def writePort (s : State) (inp : Inputs) : State :=
  if writeEffective s inp then bufWrite s inp.bufAddr.toNat inp.bufWdata else s

/-- `raise Fault(code, w)`, fault entry: exactly `PHASE`, `DONE`, `ERRCODE` and `ERRCMD` change; control goes nowhere
(R112, R113). -/
def raiseFault (code : ErrCode) (w : Word) (s : State) : State :=
  { s with phase := .fault, done := false, errcode := code, errcmd := w }

/-- The reset edge, the only way out of `FAULT` (R115, R122): every register takes its reset value, every byte of `BUF` becomes
unwritten, `OUTLOG` becomes empty. -/
def resetEdge (s : State) : State := State.resetWith s.cfg s.cycles

end Sys2Proof.Machine
end

