-- ==== Sys2Proof/Machine/Operands.lean ====
section
/-! DEFINITION. The operand forms: the unsigned operand field and the quantities it is compared with
(spec/30_encoding.md R56, spec/40_bit_group_encoder.md R68, R69, R75, spec/42_sequencer_and_control.md R96). -/

namespace Sys2Proof.Machine

/-- The buffer length in bits, `8 * LEN`, exact (R75). -/
def bufferBits (s : State) : Nat := 8 * s.len.toNat

/-- The precondition of `ENC n`: `n <= 8 * LEN` (R75). -/
def bitsFit (s : State) (n : Operand) : Bool := decide (n.toNat ≤ bufferBits s)

/-- The precondition of `SETLEN n`: `n <= MAX_LEN` (R96). -/
def lengthFits (s : State) (n : Operand) : Bool := decide (n.toNat ≤ s.cfg.maxLen)

/-- The operand of `SETLEN` as `LEN` holds it. Exact where the command does not fault, since `MAX_LEN < 2^24` (R96). -/
def lengthOperand (n : Operand) : BitVec 24 := BitVec.ofNat 24 n.toNat

/-- The bit count of `ENCF`, `8 * LEN`. Exact: it is below 2^27 (R88). -/
def fullBits (s : State) : Operand := BitVec.ofNat 28 (bufferBits s)

/-- The byte index `i = P >> 3` of the current group (R68). -/
def byteIndex (s : State) : Nat := s.p.toNat / 8

/-- The bit offset `j = P & 7` of the current group (R68). -/
def bitOffset (s : State) : BitOffset := BitVec.ofNat 3 (s.p.toNat % 8)

/-- `has_next`: is there a byte after byte `i` in the buffer? In the form that cannot underflow (R69, C3). -/
def hasNext (s : State) : Bool := decide (byteIndex s + 1 < s.len.toNat)

/-- Does the group at bit offset `j` span two bytes? (R46, R70) -/
def crosses (j : BitOffset) : Bool := decide (4 ≤ j.toNat)

/-- `ceil(n / 5)`, the number of groups of an `n`-bit encode (R8, R82). -/
def groupCount (n : Nat) : Nat := (n + 4) / 5

end Sys2Proof.Machine
end

