-- ==== Sys2Proof/Machine/Flags.lean ====
section
/-! DEFINITION. The flags: the levels `busy` and `fault`, the bits of `PHASE` and `ERRCODE`, and what starting and ending an encode
does to `PHASE` and `DONE` (spec/10_state.md R18, R23, R24, R26, R27, spec/40_bit_group_encoder.md R76, R78). -/

namespace Sys2Proof.Machine

/-- The two bits of `PHASE` (R18). -/
def Phase.code : Phase → BitVec 2
  | .idle => 0
  | .busy => 1
  | .fault => 2

/-- The two bits of `ERRCODE` (R24). -/
def ErrCode.code : ErrCode → BitVec 2
  | .none => 0
  | .insufficientInput => 1
  | .illegalCommand => 2
  | .lenRange => 3

/-- `DONE` after the accept of an `n`-bit encode: 1 exactly for the empty encode, which is complete at once (R23, R76). -/
def startDone (n : Operand) : Bool := decide (n = 0)

/-- `PHASE` after the accept of an `n`-bit encode: the empty encode leaves it as it is (R76; DESIGN CHOICE outside
`IDLE`, log entry 11). -/
def startPhase (n : Operand) (old : Phase) : Phase := if n = 0 then old else .busy

/-- Is the transfer at this cursor the last of the encode? `P + 5 >= BITS`, computed exactly (R78; DESIGN CHOICE where `P + 5` would
overflow, log entry 7). -/
def lastTransfer (s : State) : Bool := decide (s.bits.toNat ≤ s.p.toNat + 5)

/-- `PHASE` after an output transfer (R78). -/
def transferPhase (s : State) : Phase := if lastTransfer s then .idle else s.phase

/-- `DONE` after an output transfer (R78). -/
def transferDone (s : State) : Bool := if lastTransfer s then true else s.done

end Sys2Proof.Machine
end

