-- ==== Sys2Proof/Machine/Extractor.lean ====
section
/-! DEFINITION. The 5-bit group extractor and the character ROM
(spec/40_bit_group_encoder.md R68 to R74, spec/10_state.md R28, R29, spec/20_memory.md R41, R42). -/

namespace Sys2Proof.Machine

/-- The character ROM: entry `v` is the code of character `v` of `ybndrfg8ejkmcpqxot1uwisza345h769` (R28; its ASCII
codes as the spec prints them, UNVERIFIED beyond that, log entry 8). -/
def lutRom : List Byte :=
  [0x79, 0x62, 0x6E, 0x64, 0x72, 0x66, 0x67, 0x38,
   0x65, 0x6A, 0x6B, 0x6D, 0x63, 0x70, 0x71, 0x78,
   0x6F, 0x74, 0x31, 0x75, 0x77, 0x69, 0x73, 0x7A,
   0x61, 0x33, 0x34, 0x35, 0x68, 0x37, 0x36, 0x39]

/-- `LUT[v]` (R28, R72). -/
def lut (v : Group) : Byte := lutRom[v.toNat]'(v.isLt)

/-- `GroupExtract(b0, b1, has_next, j)` of R71: the group inside one byte (step 2), or the low bits of `b0` above the top bits of
`b1`, zeros standing for `b1` where there is no next byte (step 3). -/
def groupExtract (b0 b1 : Byte) (hasNext : Bool) (j : BitOffset) : Group :=
  if j.toNat ≤ 3 then BitVec.ofNat 5 ((b0.toNat >>> (3 - j.toNat)) &&& 31)
  else
    let ov := j.toNat - 3
    let high := (b0.toNat <<< ov) &&& 31
    let low := if hasNext then b1.toNat >>> (8 - ov) else 0
    BitVec.ofNat 5 (high ||| low)

/-- The second byte of the current group: read only where the group crosses into a byte of the buffer (R71, R77, R85). -/
def secondByte (s : State) : Except Fault Byte :=
  if crosses (bitOffset s) && hasNext s then bufRead s (byteIndex s + 1) else .ok 0

/-- The group at the cursor, or the fault of a read it makes. Where both bytes are unwritten the fault names the first (R77, R85, log
entry 5). -/
def currentGroup (s : State) : Except Fault Group :=
  match bufRead s (byteIndex s), secondByte s with
  | .error f, _ => .error f
  | .ok _, .error f => .error f
  | .ok b0, .ok b1 => .ok (groupExtract b0 b1 (hasNext s) (bitOffset s))

/-- The character at the cursor, `LUT[v]`, or the fault of a read it makes (R77, R85). -/
def currentChar (s : State) : Except Fault Byte :=
  match currentGroup s with
  | .error f => .error f
  | .ok v => .ok (lut v)

/-- `StreamBit(q)` of R41: the most significant bit of byte 0 comes first; positions at or past `8 * LEN` read 0. It is the spec's
bit stream, which statements compare the extractor with. An unwritten byte has no bits; where one stands in for them statements
assume that the byte is written. -/
def streamBit (s : State) (q : Nat) : Bool :=
  if q < bufferBits s then ((Memory.read s.buf (q / 8)).getD 0).getLsbD (7 - q % 8) else false

/-- The five stream bits at positions `q .. q + 4`, the first most significant: the sum of R42 and R73. -/
def streamGroup (s : State) (q : Nat) : Nat :=
  16 * (streamBit s q).toNat + 8 * (streamBit s (q + 1)).toNat + 4 * (streamBit s (q + 2)).toNat
    + 2 * (streamBit s (q + 3)).toNat + (streamBit s (q + 4)).toNat

/-- Character `k` of an encode of the buffer: the code of the group at stream position `5 * k` (R43, R73, R79). -/
def streamChar (s : State) (k : Nat) : Byte := lut (BitVec.ofNat 5 (streamGroup s (5 * k)))

/-- The text of an `n`-bit encode of the buffer: its first `ceil(n / 5)` characters (R43, R82). -/
def streamText (s : State) (n : Nat) : List Byte := (List.range (groupCount n)).map (streamChar s)

end Sys2Proof.Machine
end

