-- ==== Sys2Proof/Machine/Encode.lean ====
section
/-! DEFINITION. The two halves of an encode that `ENC` and `ENCF` share: its start at accept and the output step
(spec/40_bit_group_encoder.md R76 to R78, R85, spec/41_full_byte_encoder.md R88). -/

namespace Sys2Proof.Machine

/-- The start of an `n`-bit encode, the part of R76 and R88 that follows the precondition. DEDUCED (log entry 10): of the commands these
alone empty `OUTLOG` (R32, R96). -/
def beginEncode (n : Operand) (s : State) : State :=
  { s with
    bits := n, p := 0, outcnt := 0, outlog := []
    done := startDone n, phase := startPhase n s.phase }

/-- A completed output transfer of the code `c`: it is emitted, the cursor advances by 5, the last one ends the encode (R78).
DESIGN CHOICE (log entry 7): in states no run reaches the two sums wrap. -/
def transfer (c : Byte) (s : State) : State :=
  { s with
    outlog := s.outlog ++ [c], p := s.p + 5, outcnt := s.outcnt + 1
    phase := transferPhase s, done := transferDone s }

/-- The output step of a `BUSY` cycle: the character is computed, so that an unwritten byte stops the model even where `out_ready`
is 0 (R85); with `out_ready` it is transferred, without it nothing changes (R78). -/
def outputStep (inp : Inputs) (s : State) : Host.Outcome State Fault Refusal :=
  match currentChar s with
  | .error f => .fault f
  | .ok c => .next (if inp.outReady then transfer c s else s)

end Sys2Proof.Machine
end

