-- ==== Sys2Proof/Machine/BitGroup.lean ====
section
/-! DEFINITION. `ENC n`, the bit-group encoder's command (spec/40_bit_group_encoder.md R75, R76). -/

namespace Sys2Proof.Machine

/-- `ENC n` at accept: `INSUFFICIENT_INPUT` when `n > 8 * LEN`, else the encode starts (R76, R103). -/
def execEnc (n : Operand) (s : State) : Host.Outcome State Fault Refusal :=
  .next (if bitsFit s n then beginEncode n s else raiseFault .insufficientInput (encode (.enc n)) s)

end Sys2Proof.Machine
end

