-- ==== Sys2Proof/Machine/Control.lean ====
section
/-! DEFINITION. The control commands: `SETLEN n` and the fourteen `ILLEGAL` rows
(spec/42_sequencer_and_control.md R96, R97, spec/60_exceptions.md R104 to R106). -/

namespace Sys2Proof.Machine

/-- Set `LEN`, clear `DONE` (R96). -/
def setLength (n : Operand) (s : State) : State :=
  { s with len := lengthOperand n, done := false }

/-- `SETLEN n` at accept: `LEN_RANGE` when `n > MAX_LEN`, else the length is set (R96, R106). -/
def execSetlen (n : Operand) (s : State) : Host.Outcome State Fault Refusal :=
  .next (if lengthFits s n then setLength n s else raiseFault .lenRange (encode (.setlen n)) s)

/-- An `ILLEGAL` word `w` at accept: always `ILLEGAL_COMMAND`, `ERRCMD` holding the word (R97). -/
def rejectWord (w : Word) (s : State) : Host.Outcome State Fault Refusal :=
  .next (raiseFault .illegalCommand w s)

/-- Opcode 0x3 with a non-zero operand (R105, R97). -/
def execIllegalEncf (x : Operand) (s : State) : Host.Outcome State Fault Refusal :=
  rejectWord (encode (.illegalEncf x)) s

/-- Reserved opcode 0x0 (R104, R97). -/
def execIllegal0 (x : Operand) (s : State) : Host.Outcome State Fault Refusal :=
  rejectWord (encode (.illegal0 x)) s

/-- Reserved opcode 0x4 (R104, R97). -/
def execIllegal4 (x : Operand) (s : State) : Host.Outcome State Fault Refusal :=
  rejectWord (encode (.illegal4 x)) s

/-- Reserved opcode 0x5 (R104, R97). -/
def execIllegal5 (x : Operand) (s : State) : Host.Outcome State Fault Refusal :=
  rejectWord (encode (.illegal5 x)) s

/-- Reserved opcode 0x6 (R104, R97). -/
def execIllegal6 (x : Operand) (s : State) : Host.Outcome State Fault Refusal :=
  rejectWord (encode (.illegal6 x)) s

/-- Reserved opcode 0x7 (R104, R97). -/
def execIllegal7 (x : Operand) (s : State) : Host.Outcome State Fault Refusal :=
  rejectWord (encode (.illegal7 x)) s

/-- Reserved opcode 0x8 (R104, R97). -/
def execIllegal8 (x : Operand) (s : State) : Host.Outcome State Fault Refusal :=
  rejectWord (encode (.illegal8 x)) s

/-- Reserved opcode 0x9 (R104, R97). -/
def execIllegal9 (x : Operand) (s : State) : Host.Outcome State Fault Refusal :=
  rejectWord (encode (.illegal9 x)) s

/-- Reserved opcode 0xA (R104, R97). -/
def execIllegalA (x : Operand) (s : State) : Host.Outcome State Fault Refusal :=
  rejectWord (encode (.illegalA x)) s

/-- Reserved opcode 0xB (R104, R97). -/
def execIllegalB (x : Operand) (s : State) : Host.Outcome State Fault Refusal :=
  rejectWord (encode (.illegalB x)) s

/-- Reserved opcode 0xC (R104, R97). -/
def execIllegalC (x : Operand) (s : State) : Host.Outcome State Fault Refusal :=
  rejectWord (encode (.illegalC x)) s

/-- Reserved opcode 0xD (R104, R97). -/
def execIllegalD (x : Operand) (s : State) : Host.Outcome State Fault Refusal :=
  rejectWord (encode (.illegalD x)) s

/-- Reserved opcode 0xE (R104, R97). -/
def execIllegalE (x : Operand) (s : State) : Host.Outcome State Fault Refusal :=
  rejectWord (encode (.illegalE x)) s

/-- Reserved opcode 0xF (R104, R97). -/
def execIllegalF (x : Operand) (s : State) : Host.Outcome State Fault Refusal :=
  rejectWord (encode (.illegalF x)) s

end Sys2Proof.Machine
end

