-- ==== Sys2Proof/Machine/FullByte.lean ====
section
/-! DEFINITION. `ENCF`, the full-byte encoder's command (spec/41_full_byte_encoder.md R88, R89). -/

namespace Sys2Proof.Machine

/-- `ENCF` at accept: an encode of `8 * LEN` bits starts; it cannot fault (R88, R89). -/
def execEncf (s : State) : Host.Outcome State Fault Refusal :=
  .next (beginEncode (fullBits s) s)

end Sys2Proof.Machine
end

