-- ==== Sys2Proof/Machine/Dispatch.lean ====
section
/-! DEFINITION. Dispatch: the effect of an accepted command, one arm per row of the opcode table (spec/42_sequencer_and_control.md R95). -/

namespace Sys2Proof.Machine

/-- Dispatch of an accepted word (R95). The sequencer calls it in `IDLE` only (R94; DESIGN CHOICE for the other phases, log entry 11). -/
def exec (i : Instr) (s : State) : Host.Outcome State Fault Refusal :=
  match i with
  | .setlen n => Sys2Proof.Machine.execSetlen n s
  | .enc n => Sys2Proof.Machine.execEnc n s
  | .encf => Sys2Proof.Machine.execEncf s
  | .illegalEncf x => Sys2Proof.Machine.execIllegalEncf x s
  | .illegal0 x => Sys2Proof.Machine.execIllegal0 x s
  | .illegal4 x => Sys2Proof.Machine.execIllegal4 x s
  | .illegal5 x => Sys2Proof.Machine.execIllegal5 x s
  | .illegal6 x => Sys2Proof.Machine.execIllegal6 x s
  | .illegal7 x => Sys2Proof.Machine.execIllegal7 x s
  | .illegal8 x => Sys2Proof.Machine.execIllegal8 x s
  | .illegal9 x => Sys2Proof.Machine.execIllegal9 x s
  | .illegalA x => Sys2Proof.Machine.execIllegalA x s
  | .illegalB x => Sys2Proof.Machine.execIllegalB x s
  | .illegalC x => Sys2Proof.Machine.execIllegalC x s
  | .illegalD x => Sys2Proof.Machine.execIllegalD x s
  | .illegalE x => Sys2Proof.Machine.execIllegalE x s
  | .illegalF x => Sys2Proof.Machine.execIllegalF x s

end Sys2Proof.Machine
end

