-- ==== Sys2Proof/Machine/Ports.lean ====
section
/-! DEFINITION. The output ports, each a function of the state alone
(spec/10_state.md R26, spec/30_encoding.md R61, R62, spec/40_bit_group_encoder.md R77, spec/42_sequencer_and_control.md R94, R98). -/

namespace Sys2Proof.Machine

/-- The values of the output ports in one cycle (R61). `outData` is absent where the character depends on an unwritten byte, whose
value the spec does not give (R45). -/
structure Outputs where
  cmdReady : Bool
  outValid : Bool
  outData : Option Byte
  busy : Bool
  fault : Bool
  done : Bool
  errcode : BitVec 2
  errcmd : Word
  lenQ : BitVec 24
  bitsQ : BitVec 28
  pQ : BitVec 28
  outcntQ : BitVec 25
  deriving DecidableEq, Repr

/-- `cmd_ready` (R94). -/
def cmdReady (s : State) : Bool := decide (s.phase = .idle)

/-- `out_valid` (R77). -/
def outValid (s : State) : Bool := decide (s.phase = .busy)

/-- `out_data`: the character at the cursor in `BUSY`, 0x00 in the other phases (R62, R77). -/
def outData (s : State) : Option Byte :=
  if outValid s then (currentChar s).toOption else some 0

/-- All output ports (R26, R77, R94, R98). -/
def outputs (s : State) : Outputs where
  cmdReady := cmdReady s
  outValid := outValid s
  outData := outData s
  busy := decide (s.phase = .busy)
  fault := decide (s.phase = .fault)
  done := s.done
  errcode := s.errcode.code
  errcmd := s.errcmd
  lenQ := s.len
  bitsQ := s.bits
  pQ := s.p
  outcntQ := s.outcnt

end Sys2Proof.Machine
end

