-- ==== Sys2Proof/Machine/Sequencer.lean ====
section
/-! DEFINITION. What one clock edge does besides running a command: taking the host's inputs, the write port, the choice of work by
phase (spec/42_sequencer_and_control.md R94, R99, R100, spec/60_exceptions.md R114). -/

namespace Sys2Proof.Machine

/-- What the host drives at edge `k` from now: entry `k` of the schedule, or the inactive inputs past its end (R61, R64, log entry
3). -/
def inputsAt (s : State) (k : Nat) : Inputs := s.cycles.getD k Inputs.inactive

/-- What the host drives at this edge. -/
def currentInputs (s : State) : Inputs := inputsAt s 0

/-- The edge's inputs are used up. -/
def dropCycle (s : State) : State := { s with cycles := s.cycles.tail }

/-- What an edge does (R99). -/
inductive Work where
  /-- `rst = 1`: the reset edge. -/
  | reset
  /-- A word is accepted. -/
  | accept (w : Word)
  /-- A `BUSY` cycle. -/
  | output
  /-- `IDLE` with no word offered, or `FAULT`: no register changes. -/
  | hold
  deriving DecidableEq, Repr

/-- The work of this edge: `rst` overrides everything (R114), a word is accepted in `IDLE` alone (R94), `BUSY` runs the output step,
`FAULT` does nothing (R99, R100). -/
def edgeWork (s : State) : Work :=
  if (currentInputs s).rst then .reset
  else
    match s.phase with
    | .idle => if (currentInputs s).cmdValid then .accept (currentInputs s).cmdData else .hold
    | .busy => .output
    | .fault => .hold

/-- The state the edge's work starts from: the inputs taken, an effective `BUF` write made. The write port changes only `BUF`, which
no command reads or writes, so that both take effect at one edge (R99). -/
def edgeStart (s : State) : State := writePort (dropCycle s) (currentInputs s)

/-- The state with the word `w` offered at its next edge, and the phase that accepts it: what a host does that runs `w` next. The
other inputs of that edge stay as they are scheduled (DESIGN CHOICE, log entry 2). -/
def offerWord (s : State) (w : Word) : State :=
  { s with
    phase := .idle
    cycles := { currentInputs s with rst := false, cmdValid := true, cmdData := w } :: s.cycles.tail }

end Sys2Proof.Machine
end

