-- ==== Sys2Proof/Machine/Step.lean ====
section
/-! DEFINITION. One clock edge of the block (spec/42_sequencer_and_control.md R99). -/

namespace Sys2Proof.Machine

/-- `Step(S, in)` of R99: the inputs of this edge are the next ones the state's schedule holds. -/
def step (s : State) : Host.Outcome State Fault Refusal :=
  match edgeWork s with
  | .reset => .next (resetEdge (dropCycle s))
  | .accept w => exec (decode w) (edgeStart s)
  | .output => outputStep (currentInputs s) (edgeStart s)
  | .hold => .next (edgeStart s)

/-- The state whose next edge accepts the opcode table's word `w` of `nbits` bits (log entry 2). -/
def State.withFetchWord (s : State) (nbits w : Nat) : State := offerWord s (tableWord nbits w)

end Sys2Proof.Machine
end

