-- ==== Sys2Proof/Machine/HostScript.lean ====
section
/-! DEFINITION. The host-script notation of spec/30_encoding.md R63 to R65: the assembler, the host's actions and what they drive. It is
notation over the ports; the block does not read it. -/

namespace Sys2Proof.Machine

/-- A command as a script writes it (R63). -/
inductive AsmCommand where
  | setlen (n : Nat)
  | enc (n : Nat)
  | encf
  | word (w : Word)
  deriving DecidableEq, Repr

/-- An operand an assembler takes: below 2^28 (R63). -/
def asmOperand (n : Nat) : Option Operand :=
  if n < 2 ^ 28 then some (BitVec.ofNat 28 n) else none

/-- The word of a written command; a larger operand is refused (R63). -/
def assemble : AsmCommand → Option Word
  | .setlen n => (asmOperand n).map (fun x => encode (.setlen x))
  | .enc n => (asmOperand n).map (fun x => encode (.enc x))
  | .encf => some (encode .encf)
  | .word w => some w

/-- The host's actions (R64). -/
inductive HostAction where
  /-- `WR a, b`. -/
  | wr (a : BufAddr) (b : Byte)
  /-- `CMD`, with the word it offers. -/
  | cmd (w : Word)
  /-- `DRAIN`. -/
  | drain
  /-- `RESET`. -/
  | reset
  deriving DecidableEq, Repr

/-- What an action drives in each cycle it lasts (R64). DESIGN CHOICE (log entry 3): data lines it names no value for are 0. -/
def HostAction.inputs : HostAction → Inputs
  | .wr a b => { Inputs.inactive with bufWe := true, bufAddr := a, bufWdata := b }
  | .cmd w => { Inputs.inactive with cmdValid := true, cmdData := w }
  | .drain => Inputs.inactive
  | .reset => { Inputs.inactive with rst := true }

/-- Is the action over after a cycle spent on it in state `s`? `CMD` lasts until the cycle in which `cmd_ready = 1`, `DRAIN` until
`busy = 0`; the others last one cycle (R64). -/
def HostAction.overAfterCycle (s : State) : HostAction → Bool
  | .wr _ _ => true
  | .cmd _ => cmdReady s
  | .drain => false
  | .reset => true

/-- The next cycle of a script: what is driven, and the script that is left. A `DRAIN` that finds `busy = 0` is over without a
cycle (DESIGN CHOICE, log entry 13). -/
def scriptCycle (s : State) : List HostAction → Option (Inputs × List HostAction)
  | [] => none
  | a :: rest =>
    if a = .drain ∧ s.phase ≠ .busy then scriptCycle s rest
    else some (a.inputs, if a.overAfterCycle s then rest else a :: rest)

/-- Run a script for at most `fuel` edges. -/
def runScript : Nat → List HostAction → State → Host.Outcome State Fault Refusal
  | 0, _, s => .next s
  | fuel + 1, script, s =>
    match scriptCycle s script with
    | none => .next s
    | some (inp, rest) =>
      match step { s with cycles := [inp] } with
      | .next t => runScript fuel rest t
      | .fault f => .fault f
      | .refused r => .refused r

/-- `LOAD a: b0 b1 …`, one write a cycle in rising order (R65). DESIGN CHOICE (log entry 13): an address past 2^24 - 1
wraps. -/
def loadBytes : BufAddr → List Byte → List HostAction
  | _, [] => []
  | a, b :: bs => .wr a b :: loadBytes (a + 1) bs

/-- `ENCODE_BYTES b0 …`, the four parts of R65. DESIGN CHOICE (log entry 13): for 2^28 or more bytes, whose `SETLEN k+1` R63 gives no
word, the length in that word wraps at 28 bits; for no byte it is 0. -/
def encodeBytes (bs : List Byte) : List HostAction :=
  loadBytes 0 bs ++
    [.cmd (encode (.setlen (BitVec.ofNat 28 bs.length))), .cmd (encode .encf), .drain]

end Sys2Proof.Machine
end

