-- ==== Sys2Proof/Safety.lean ====
section
/-! DEFINITION. The terms claims are stated in: the machine's invariant, the log of an encode in progress, the bytes an output step
reads, the end of an encode. -/

namespace Sys2Proof.Machine

/-- The invariant of the block, which rules out states no run reaches. -/
structure State.Inv (s : State) : Prop where
  /-- `LEN <= MAX_LEN` (R19). -/
  lenLegal : s.len.toNat ≤ s.cfg.maxLen
  /-- No bit count exceeds `8 * MAX_LEN` (R6). -/
  bitsLegal : s.bits.toNat ≤ 8 * s.cfg.maxLen
  /-- `5 * OUTCNT = P` (R22). -/
  cursorCounts : 5 * s.outcnt.toNat = s.p.toNat
  /-- In `BUSY`, `P < BITS` (R21). -/
  cursorBelow : s.phase = .busy → s.p.toNat < s.bits.toNat
  /-- In `BUSY`, `BITS <= 8 * LEN` (R20, R84). -/
  bitsInBuffer : s.phase = .busy → s.bits.toNat ≤ bufferBits s
  /-- Outside `BUSY`, `P = 5 * ceil(BITS / 5)` (R21). -/
  cursorAtEnd : s.phase ≠ .busy → s.p.toNat = 5 * groupCount s.bits.toNat
  /-- `DONE` reads 1 in `IDLE` only (R23). -/
  doneIdle : s.done = true → s.phase = .idle
  /-- `ERRCODE` is non-zero exactly in `FAULT` (R24). -/
  errcodeFault : s.errcode ≠ .none ↔ s.phase = .fault
  /-- `ERRCMD` holds its reset value until a fault (R25). -/
  errcmdClear : s.phase ≠ .fault → s.errcmd = 0
  /-- `OUTLOG` holds the `OUTCNT` characters of the encode (R22, R32). -/
  logCounts : s.outlog.length = s.outcnt.toNat
  /-- `BUF` is in canonical form. -/
  bufWf : Memory.wf s.buf
  /-- `BUF` holds `MAX_LEN` bytes (R36). -/
  bufBound : ∀ c ∈ s.buf, c.1 < s.cfg.maxLen

/-- Every code in `OUTLOG` is one of the 32 codes of the alphabet (R86). -/
def State.AlphabetClosed (s : State) : Prop := ∀ c ∈ s.outlog, c ∈ lutRom

/-- `OUTLOG` holds, in order, the characters of the buffer's first `OUTCNT` groups (R43, R73). -/
def State.LogIsText (s : State) : Prop := s.outlog = (List.range s.outcnt.toNat).map (streamChar s)

/-- The bytes the output step reads at the cursor (R85). -/
def readSet (s : State) : List Nat :=
  if crosses (bitOffset s) && hasNext s then [byteIndex s, byteIndex s + 1] else [byteIndex s]

/-- Is byte `i` of `BUF` written since the last reset? (R44) -/
def written (s : State) (i : Nat) : Bool := (Memory.read s.buf i).isSome

/-- Is every byte of the input buffer `BUF[0 .. LEN-1]` written? Step 2 of R125. -/
def bufferWritten (s : State) : Prop := ∀ i, i < s.len.toNat → written s i = true

/-- `k` clock edges from `s`, stopping at the first stop. -/
def runSteps : Nat → State → Host.Outcome State Fault Refusal
  | 0, s => .next s
  | k + 1, s =>
    match step s with
    | .next t => runSteps k t
    | .fault f => .fault f
    | .refused r => .refused r

/-- An encode has ended with its output complete: the first case of R101. -/
def encodeEnded (s : State) : Bool := decide (s.phase = .idle) && s.done

/-- A word is accepted at this edge: `cmd_valid = 1`, `cmd_ready = 1`, `rst = 0` (R94). -/
def acceptsCommand (s : State) : Bool :=
  !(currentInputs s).rst && decide (s.phase = .idle) && (currentInputs s).cmdValid

/-- The command `i` is accepted at this edge (R94, R95). -/
def accepts (s : State) (i : Instr) : Prop :=
  acceptsCommand s = true ∧ decode (currentInputs s).cmdData = i

/-- An output transfer completes at this edge (R78). -/
def transfers (s : State) : Bool :=
  !(currentInputs s).rst && decide (s.phase = .busy) && (currentInputs s).outReady

/-- The hardware fault a command meets when it is accepted, if it meets one (R102, R114). -/
def faultCause (i : Instr) (s : State) : ErrCode :=
  match i with
  | .setlen n => if s.cfg.maxLen < n.toNat then .lenRange else .none
  | .enc n => if 8 * s.len.toNat < n.toNat then .insufficientInput else .none
  | .encf => .none
  | .illegalEncf _ => .illegalCommand
  | .illegal0 _ => .illegalCommand
  | .illegal4 _ => .illegalCommand
  | .illegal5 _ => .illegalCommand
  | .illegal6 _ => .illegalCommand
  | .illegal7 _ => .illegalCommand
  | .illegal8 _ => .illegalCommand
  | .illegal9 _ => .illegalCommand
  | .illegalA _ => .illegalCommand
  | .illegalB _ => .illegalCommand
  | .illegalC _ => .illegalCommand
  | .illegalD _ => .illegalCommand
  | .illegalE _ => .illegalCommand
  | .illegalF _ => .illegalCommand

/-- The same state with the host driving `inp` at the next edge, all later edges as scheduled. -/
def withInputs (s : State) (inp : Inputs) : State := { s with cycles := inp :: s.cycles.tail }

/-- What a host drives that offers the word `w` and nothing else. -/
def offerInputs (w : Word) : Inputs := { Inputs.inactive with cmdValid := true, cmdData := w }

end Sys2Proof.Machine
end

