-- ==== Sys2Proof/Certificates/Slice0/Obligations.lean ====
section
/-! DEFINITION. The statements for the provers. Each is taken from the spec's numbered rules, which its docstring names. -/

open Sys2Proof Sys2Proof.Machine

/-! ### Encoding -/

/-- Every well-formed command is read back from its own word, whatever its operand (R58, R63). -/
def Obligations.DecodeOfEncode : Prop :=
  ∀ i : Instr, i.wellFormed = true → decode (encode i) = i

/-- Every word is the word of exactly the command it decodes to: the decoder is total and drops no bit (R58, R59). -/
def Obligations.EncodeOfDecode : Prop :=
  ∀ w : Word, (decode w).wellFormed = true ∧ encode (decode w) = w

/-- R58: the decoder on the two fields of a word, read as numbers; and a word that is not accepted has no effect. -/
def Obligations.DecoderByFields : Prop :=
  (∀ w : Word,
    (w.toNat / 2 ^ 28 = 1 → decode w = .setlen (BitVec.ofNat 28 w.toNat)) ∧
    (w.toNat / 2 ^ 28 = 2 → decode w = .enc (BitVec.ofNat 28 w.toNat)) ∧
    (w.toNat / 2 ^ 28 = 3 ∧ w.toNat % 2 ^ 28 = 0 → decode w = .encf) ∧
    ((decode w).isIllegal = true ↔
      (w.toNat / 2 ^ 28 ≠ 1 ∧ w.toNat / 2 ^ 28 ≠ 2 ∧ ¬ (w.toNat / 2 ^ 28 = 3 ∧ w.toNat % 2 ^ 28 = 0)))) ∧
  ∀ (s : State) (w : Word), acceptsCommand s = false →
    step (withInputs s { currentInputs s with cmdData := w }) = step s

/-- Every word meets the match and mask of the row it decodes to (R57). -/
def Obligations.DecodedRowMatchesWord : Prop :=
  ∀ w : Word, w &&& (decode w).rowMask = (decode w).rowMatch

/-- R63: the words the assembler gives, the operands it refuses. -/
def Obligations.AssembledWords : Prop :=
  (∀ n : Nat, n < 2 ^ 28 →
    assemble (.setlen n) = some (0x10000000#32 ||| BitVec.ofNat 32 n) ∧
    assemble (.enc n) = some (0x20000000#32 ||| BitVec.ofNat 32 n)) ∧
  (∀ n : Nat, 2 ^ 28 ≤ n → assemble (.setlen n) = none ∧ assemble (.enc n) = none) ∧
  assemble .encf = some 0x30000000#32 ∧ ∀ w : Word, assemble (.word w) = some w

/-- A few words of the spec's programs, and the command each stands for (spec/95_test_vectors.md, R57). -/
def Obligations.WrittenWordsDecode : Prop :=
  decode 0x10000003#32 = .setlen 3 ∧ decode 0x20000189#32 = .enc 393 ∧ decode 0x2FFFFFFF#32 = .enc 0x0FFFFFFF ∧
  decode 0x30000000#32 = .encf ∧ decode 0x30000001#32 = .illegalEncf 1 ∧ decode 0x00000000#32 = .illegal0 0 ∧
  decode 0x0000002A#32 = .illegal0 0x2A ∧ decode 0x40000000#32 = .illegal4 0 ∧ decode 0xFFFFFFFF#32 = .illegalF 0x0FFFFFFF

/-! ### Reset -/

/-- R33: the reset state, on every block; `State.reset` is one of these states. -/
def Obligations.ResetValues : Prop :=
  (∃ c cs, State.reset = State.resetWith c cs) ∧
  (∀ c cs,
    (State.resetWith c cs).phase = .idle ∧ (State.resetWith c cs).len = 0 ∧ (State.resetWith c cs).bits = 0 ∧
    (State.resetWith c cs).p = 0 ∧ (State.resetWith c cs).outcnt = 0 ∧ (State.resetWith c cs).done = false ∧
    (State.resetWith c cs).errcode = .none ∧ (State.resetWith c cs).errcmd = 0 ∧
    (∀ k, Memory.read (State.resetWith c cs).buf k = none) ∧ (State.resetWith c cs).outlog = []) ∧
  lutRom = [0x79, 0x62, 0x6E, 0x64, 0x72, 0x66, 0x67, 0x38, 0x65, 0x6A, 0x6B, 0x6D, 0x63, 0x70, 0x71, 0x78,
            0x6F, 0x74, 0x31, 0x75, 0x77, 0x69, 0x73, 0x7A, 0x61, 0x33, 0x34, 0x35, 0x68, 0x37, 0x36, 0x39]

/-- R122: an edge with `rst = 1` leads from every state, whatever the other inputs are, to the reset state. -/
def Obligations.ResetEdgeFromAnywhere : Prop :=
  ∀ s : State, (currentInputs s).rst = true →
    ∃ t, step s = .next t ∧ t.phase = .idle ∧ t.len = 0 ∧ t.bits = 0 ∧ t.p = 0 ∧ t.outcnt = 0 ∧ t.done = false ∧
      t.errcode = .none ∧ t.errcmd = 0 ∧ (∀ k, Memory.read t.buf k = none) ∧ t.outlog = [] ∧
      t.cfg = s.cfg ∧ t.cycles = s.cycles.tail

/-- The reset state of every block meets the invariant and what the other statements assume of a log (R19 to R25, R32, R44). -/
def Obligations.ResetMeetsInvariant : Prop :=
  ∀ c cs, (State.resetWith c cs).Inv ∧ (State.resetWith c cs).AlphabetClosed ∧ (State.resetWith c cs).LogIsText

/-! ### The step -/

/-- A step runs the decoded command: with a word offered in `IDLE` and no reset, `step` is `exec` of the decoded word, on the state
whose inputs are used up and whose effective `BUF` write is made (R94, R95, R99). -/
def Obligations.StepRunsDecodedCommand : Prop :=
  ∀ s : State, (currentInputs s).rst = false → s.phase = .idle → (currentInputs s).cmdValid = true →
    (decode (currentInputs s).cmdData).wellFormed = true ∧
    step s = exec (decode (currentInputs s).cmdData)
      { s with
        cycles := s.cycles.tail
        buf := if (currentInputs s).bufWe = true ∧ (currentInputs s).bufAddr.toNat < s.cfg.maxLen
          then Memory.write s.buf (currentInputs s).bufAddr.toNat (currentInputs s).bufWdata else s.buf }

/-- R94: `cmd_ready` is the phase `IDLE`; a word is accepted exactly with `cmd_valid = 1`, `cmd_ready = 1` and `rst = 0`; an accepted
word is decoded and dispatched in that step; where no word is accepted, the step is the same whatever else the command port could
carry without an accept, and in `IDLE` without reset nothing but the write port acts. -/
def Obligations.CommandAcceptance : Prop :=
  ∀ s : State,
    (cmdReady s = true ↔ s.phase = .idle) ∧
    (acceptsCommand s = true ↔ (currentInputs s).cmdValid = true ∧ cmdReady s = true ∧ (currentInputs s).rst = false) ∧
    ((currentInputs s).cmdValid = true → cmdReady s = true → (currentInputs s).rst = false →
      step s = exec (decode (currentInputs s).cmdData) (edgeStart s)) ∧
    (acceptsCommand s = false →
      (∀ (v : Bool) (w : Word), acceptsCommand (withInputs s { currentInputs s with cmdValid := v, cmdData := w }) = false →
        step (withInputs s { currentInputs s with cmdValid := v, cmdData := w }) = step s) ∧
      (s.phase = .idle → (currentInputs s).rst = false → step s = .next (edgeStart s)))

/-- R99: the complete step. -/
def Obligations.CompleteStep : Prop :=
  ∀ s : State,
    ((currentInputs s).rst = true → step s = .next (State.resetWith s.cfg s.cycles.tail)) ∧
    ((currentInputs s).rst = false →
      (s.phase = .idle → (currentInputs s).cmdValid = true → step s = exec (decode (currentInputs s).cmdData) (edgeStart s)) ∧
      (s.phase = .idle → (currentInputs s).cmdValid = false → step s = .next (edgeStart s)) ∧
      (s.phase = .busy → step s = outputStep (currentInputs s) (edgeStart s)) ∧
      (s.phase = .fault → step s = .next (edgeStart s)) ∧
      (edgeStart s = { s with
        cycles := s.cycles.tail
        buf := if (currentInputs s).bufWe = true ∧ s.phase = .idle ∧ (currentInputs s).bufAddr.toNat < s.cfg.maxLen
          then Memory.write s.buf (currentInputs s).bufAddr.toNat (currentInputs s).bufWdata else s.buf }))

/-- R39: every byte of `BUF` after a step, in every phase: the byte of an effective write, else what it was; after a reset none. -/
def Obligations.EffectiveWrites : Prop :=
  ∀ s t : State, step s = .next t → ∀ a : Nat,
    Memory.read t.buf a =
      if (currentInputs s).rst = true then none
      else if (currentInputs s).bufWe = true ∧ s.phase = .idle ∧ (currentInputs s).bufAddr.toNat < s.cfg.maxLen ∧
          (currentInputs s).bufAddr.toNat = a then some (currentInputs s).bufWdata
      else Memory.read s.buf a

/-- R40: a write that is not effective does nothing: the step is the one without it. -/
def Obligations.IneffectiveWritesDoNothing : Prop :=
  ∀ s : State,
    ¬ ((currentInputs s).bufWe = true ∧ (currentInputs s).rst = false ∧ s.phase = .idle ∧
        (currentInputs s).bufAddr.toNat < s.cfg.maxLen) →
    step (withInputs s { currentInputs s with bufWe := false }) = step s ∧ (edgeStart s).buf = s.buf

/-- R100: `FAULT` absorbs every step but a reset, accepts no command and offers no character. -/
def Obligations.FaultAbsorbs : Prop :=
  ∀ s : State, s.phase = .fault →
    cmdReady s = false ∧ outValid s = false ∧
    ((currentInputs s).rst = false → step s = .next { s with cycles := s.cycles.tail }) ∧
    ((currentInputs s).rst = true → ∃ t, step s = .next t ∧ t.phase = .idle)

/-- R18: the encodings and the reset value of `PHASE`, and every transition a step makes with its cause; no other transition. -/
def Obligations.PhaseTransitions : Prop :=
  Phase.idle.code = 0 ∧ Phase.busy.code = 1 ∧ Phase.fault.code = 2 ∧ State.reset.phase = .idle ∧
  ∀ s t : State, step s = .next t →
    ((currentInputs s).rst = true → t.phase = .idle) ∧
    ((currentInputs s).rst = false →
      match s.phase, t.phase with
      | .idle, .idle =>
        acceptsCommand s = false ∨ (∃ n, accepts s (.setlen n)) ∨ accepts s (.enc 0) ∨ (accepts s .encf ∧ s.len = 0)
      | .idle, .busy => (∃ n, n ≠ 0 ∧ accepts s (.enc n)) ∨ (accepts s .encf ∧ s.len ≠ 0)
      | .idle, .fault => ∃ i, accepts s i ∧ faultCause i s ≠ .none
      | .busy, .idle => transfers s = true ∧ s.bits.toNat ≤ s.p.toNat + 5
      | .busy, .busy => transfers s = true → s.p.toNat + 5 < s.bits.toNat
      | .busy, .fault => False
      | .fault, .idle => False
      | .fault, .busy => False
      | .fault, .fault => True)

/-- R16: the register-write summary: a register a step changes was changed by one of its listed writers. -/
def Obligations.RegisterWriters : Prop :=
  ∀ s t : State, step s = .next t → (currentInputs s).rst = false →
    (t.phase ≠ s.phase → acceptsCommand s = true ∨ (transfers s = true ∧ s.bits.toNat ≤ s.p.toNat + 5)) ∧
    (t.len ≠ s.len → ∃ n, accepts s (.setlen n)) ∧
    (t.bits ≠ s.bits → (∃ n, accepts s (.enc n)) ∨ accepts s .encf) ∧
    (t.p ≠ s.p → (∃ n, accepts s (.enc n)) ∨ accepts s .encf ∨ transfers s = true) ∧
    (t.outcnt ≠ s.outcnt → (∃ n, accepts s (.enc n)) ∨ accepts s .encf ∨ transfers s = true) ∧
    (t.done ≠ s.done → acceptsCommand s = true ∨ (transfers s = true ∧ s.bits.toNat ≤ s.p.toNat + 5)) ∧
    (t.errcode ≠ s.errcode → ∃ i, accepts s i ∧ faultCause i s ≠ .none) ∧
    (t.errcmd ≠ s.errcmd → ∃ i, accepts s i ∧ faultCause i s ≠ .none)

/-- A step uses up one edge's inputs and never changes the block's parameters (log entries 1 and 2: the model's own state). -/
def Obligations.ScheduleAdvances : Prop :=
  ∀ s t : State, step s = .next t → t.cycles = s.cycles.tail ∧ t.cfg = s.cfg

/-! ### Commands -/

/-- R96: `SETLEN n` in `IDLE`, both outcomes; the record says that nothing else changes. With `LEN = 0` every `ENC m` with `m` not 0 faults,
`ENC 0` and `ENCF` do not. -/
def Obligations.SetlenEffect : Prop :=
  ∀ (n : Operand) (s : State), s.phase = .idle →
    (n.toNat ≤ s.cfg.maxLen →
      exec (.setlen n) s = .next { s with len := n.setWidth 24, done := false } ∧ (n.setWidth 24).toNat = n.toNat) ∧
    (s.cfg.maxLen < n.toNat →
      exec (.setlen n) s = .next
        { s with phase := .fault, done := false, errcode := .lenRange, errcmd := 0x10000000#32 ||| n.setWidth 32 }) ∧
    (s.len = 0 →
      (∀ m : Operand, m ≠ 0 → ∃ t, exec (.enc m) s = .next t ∧ t.phase = .fault) ∧
      (∃ t, exec (.enc 0) s = .next t ∧ t.phase = .idle) ∧ ∃ t, exec .encf s = .next t ∧ t.phase = .idle)

/-- R76: `ENC n` in `IDLE`, both outcomes, the empty encode, the operands that always fault, and the rule's worked example. -/
def Obligations.EncEffect : Prop :=
  (∀ (n : Operand) (s : State), s.phase = .idle →
    (n.toNat ≤ 8 * s.len.toNat → n ≠ 0 →
      exec (.enc n) s = .next { s with bits := n, p := 0, outcnt := 0, outlog := [], done := false, phase := .busy }) ∧
    (n = 0 →
      exec (.enc n) s = .next { s with bits := n, p := 0, outcnt := 0, outlog := [], done := true }) ∧
    (8 * s.len.toNat < n.toNat →
      exec (.enc n) s = .next
        { s with phase := .fault, done := false, errcode := .insufficientInput, errcmd := 0x20000000#32 ||| n.setWidth 32 }) ∧
    (2 ^ 27 ≤ n.toNat → 8 * s.len.toNat < n.toNat)) ∧
  ∀ s : State, s.phase = .idle → s.len = 1 → Memory.read s.buf 0 = some 0x80 →
    s.cycles = [offerInputs 0x20000005, Inputs.inactive] →
    ∃ t, runSteps 2 s = .next t ∧ t.outlog = [0x6F] ∧ t.phase = .idle ∧ t.done = true

/-- `ENCF` in `IDLE` starts an encode of all `8 * LEN` bits; for `LEN = 0` it is complete at once (R88, effect at accept). -/
def Obligations.EncfEffect : Prop :=
  ∀ s : State, s.phase = .idle →
    (s.len ≠ 0 → exec .encf s = .next
      { s with bits := BitVec.ofNat 28 (8 * s.len.toNat), p := 0, outcnt := 0, outlog := [], done := false, phase := .busy }) ∧
    (s.len = 0 → exec .encf s = .next { s with bits := 0, p := 0, outcnt := 0, outlog := [], done := true }) ∧
    (BitVec.ofNat 28 (8 * s.len.toNat)).toNat = 8 * s.len.toNat

/-- R89: `ENCF` never faults, and the operand check is the decoder's. -/
def Obligations.EncfNeverFaults : Prop :=
  (∀ s : State, s.phase = .idle →
    ∃ t, exec .encf s = .next t ∧ t.phase ≠ .fault ∧ t.errcode = s.errcode ∧ t.errcmd = s.errcmd) ∧
  ∀ w : Word, decode w = .encf ↔ w = 0x30000000#32

/-- R90: from the same state in `IDLE`, accepting `ENCF` and accepting `ENC (8 * LEN)` are the same step, so that everything after
it is the same too. -/
def Obligations.EncfIsEncOfFullLength : Prop :=
  ∀ (s : State) (inp : Inputs), s.phase = .idle → inp.rst = false → inp.cmdValid = true →
    step (withInputs s { inp with cmdData := 0x30000000 }) =
      step (withInputs s { inp with cmdData := 0x20000000#32 ||| BitVec.ofNat 32 (8 * s.len.toNat) }) ∧
    8 * s.len.toNat < 2 ^ 28

/-- Every `ILLEGAL` row, accepted in `IDLE`, takes the fault `ILLEGAL_COMMAND` with its word recorded, and changes nothing else (R97, R112). -/
def Obligations.IllegalRowsFault : Prop :=
  ∀ (i : Instr) (s : State), s.phase = .idle → i.isIllegal = true →
    exec i s = .next { s with phase := .fault, done := false, errcode := .illegalCommand, errcmd := encode i }

/-- R97, R104, R105: an accepted word that is no command leads to `FAULT` with code 2 and the word in `ERRCMD`. -/
def Obligations.IllegalWordsFault : Prop :=
  ∀ s : State, acceptsCommand s = true →
    ((currentInputs s).cmdData.toNat / 2 ^ 28 = 0 ∨ 4 ≤ (currentInputs s).cmdData.toNat / 2 ^ 28 ∨
      ((currentInputs s).cmdData.toNat / 2 ^ 28 = 3 ∧ (currentInputs s).cmdData.toNat % 2 ^ 28 ≠ 0)) →
    step s = .next { edgeStart s with
      phase := .fault, done := false, errcode := .illegalCommand, errcmd := (currentInputs s).cmdData } ∧
    ErrCode.illegalCommand.code = 2

/-- R102: the three hardware faults with their codes, each raised at accept and under its condition, and no other. -/
def Obligations.HardwareFaultCauses : Prop :=
  ErrCode.none.code = 0 ∧ ErrCode.insufficientInput.code = 1 ∧ ErrCode.illegalCommand.code = 2 ∧ ErrCode.lenRange.code = 3 ∧
  ∀ s t : State, step s = .next t → s.phase ≠ .fault →
    (t.phase = .fault ↔
      acceptsCommand s = true ∧
        ((∃ n, accepts s (.enc n) ∧ 8 * s.len.toNat < n.toNat) ∨ (decode (currentInputs s).cmdData).isIllegal = true ∨
          ∃ n, accepts s (.setlen n) ∧ s.cfg.maxLen < n.toNat)) ∧
    (t.phase = .fault →
      (t.errcode = .insufficientInput ↔ ∃ n, accepts s (.enc n)) ∧
      (t.errcode = .illegalCommand ↔ (decode (currentInputs s).cmdData).isIllegal = true) ∧
      (t.errcode = .lenRange ↔ ∃ n, accepts s (.setlen n)))

/-- R113: faults are precise: entering `FAULT` changes `PHASE`, `DONE`, `ERRCODE` and `ERRCMD`, and of `BUF` only what an effective
write of the same cycle stores; no character is offered. -/
def Obligations.PreciseFaults : Prop :=
  ∀ s t : State, step s = .next t → s.phase ≠ .fault → t.phase = .fault →
    t.done = false ∧ t.errcode ≠ .none ∧ t.errcmd = (currentInputs s).cmdData ∧
    t.len = s.len ∧ t.bits = s.bits ∧ t.p = s.p ∧ t.outcnt = s.outcnt ∧ t.outlog = s.outlog ∧ outValid t = false ∧
    ∀ a : Nat, Memory.read t.buf a =
      if (currentInputs s).bufWe = true ∧ (currentInputs s).bufAddr.toNat < s.cfg.maxLen ∧
          (currentInputs s).bufAddr.toNat = a then some (currentInputs s).bufWdata
      else Memory.read s.buf a

/-- The frame of every command: no byte of `BUF` changes; `LEN` only by `SETLEN`; the encode's registers and `OUTLOG` only by `ENC`
and `ENCF`; a command that meets its condition leaves the error registers alone; one that faults leaves all else alone (R16, R30,
R76, R88, R96, R113). -/
def Obligations.CommandFrame : Prop :=
  ∀ (i : Instr) (s t : State), exec i s = .next t →
    (∀ a : Nat, Memory.read t.buf a = Memory.read s.buf a) ∧ t.cfg = s.cfg ∧ t.cycles = s.cycles ∧
    ((∀ n, i ≠ .setlen n) → t.len = s.len) ∧
    ((∀ n, i ≠ .enc n) → i ≠ .encf → t.bits = s.bits ∧ t.p = s.p ∧ t.outcnt = s.outcnt ∧ t.outlog = s.outlog) ∧
    (faultCause i s = .none → t.errcode = s.errcode ∧ t.errcmd = s.errcmd) ∧
    (faultCause i s ≠ .none → t.len = s.len ∧ t.bits = s.bits ∧ t.p = s.p ∧ t.outcnt = s.outcnt ∧ t.outlog = s.outlog)

/-- R23: `DONE` after a step: 0 after a reset and a faulting command, 1 exactly for the empty encode after any other, 1 after the last
transfer; else unchanged. -/
def Obligations.DoneAfterStep : Prop :=
  State.reset.done = false ∧
  ∀ s t : State, step s = .next t →
    ((currentInputs s).rst = true → t.done = false) ∧
    (∀ i, accepts s i → (t.done = true ↔ i = .enc 0 ∨ (i = .encf ∧ s.len = 0))) ∧
    (transfers s = true → t.done = (decide (s.bits.toNat ≤ s.p.toNat + 5) || s.done)) ∧
    ((currentInputs s).rst = false → acceptsCommand s = false → transfers s = false → t.done = s.done)

/-! ### The output step -/

/-- The output step (R78): with `out_ready` the character at the cursor is transferred, the cursor advances, the last transfer ends the
encode; without it nothing changes; the write port and the command port play no part. -/
def Obligations.OutputStepEffect : Prop :=
  ∀ (s : State) (c : Byte), s.phase = .busy → (currentInputs s).rst = false → currentChar s = .ok c →
    ((currentInputs s).outReady = false → step s = .next { s with cycles := s.cycles.tail }) ∧
    ((currentInputs s).outReady = true → s.bits.toNat ≤ s.p.toNat + 5 → step s = .next
      { s with cycles := s.cycles.tail, outlog := s.outlog ++ [c], p := s.p + 5, outcnt := s.outcnt + 1,
               phase := .idle, done := true }) ∧
    ((currentInputs s).outReady = true → s.p.toNat + 5 < s.bits.toNat → step s = .next
      { s with cycles := s.cycles.tail, outlog := s.outlog ++ [c], p := s.p + 5, outcnt := s.outcnt + 1 })

/-- A stalled character stays as it is: nothing the host drives without reset changes the outputs of a `BUSY` cycle (R31, R77, R128). -/
def Obligations.StalledOutputStable : Prop :=
  ∀ s t : State, s.phase = .busy → (currentInputs s).rst = false → (currentInputs s).outReady = false →
    step s = .next t → outputs t = outputs s

/-- The extractor takes five neighbouring bits of its two bytes, zeros standing for an absent second byte (R71). -/
def Obligations.GroupIsFiveBits : Prop :=
  ∀ (b0 b1 : Byte) (hasNext : Bool) (j : BitOffset),
    groupExtract b0 b1 hasNext j =
      BitVec.extractLsb' (11 - j.toNat) 5 (b0 ++ if hasNext then b1 else (0 : Byte))

/-- R73: in `BUSY` the group at the cursor is the five stream bits at `P .. P + 4`, the first most significant, zeros past the buffer's
end; bits at or past `BITS` are not masked (R79). -/
def Obligations.GroupIsStreamBits : Prop :=
  ∀ (s : State) (v : Group), s.Inv → s.phase = .busy → currentGroup s = .ok v →
    v.toNat = streamGroup s s.p.toNat

/-- R28, R29: the character ROM is the alphabet in ASCII; its codes are distinct, lie in 0x30 .. 0x7A and have bit 7 clear. -/
def Obligations.AlphabetCodes : Prop :=
  (∀ v : Group, lutRom[v.toNat]? = some (lut v)) ∧
  lutRom = ['y', 'b', 'n', 'd', 'r', 'f', 'g', '8', 'e', 'j', 'k', 'm', 'c', 'p', 'q', 'x',
            'o', 't', '1', 'u', 'w', 'i', 's', 'z', 'a', '3', '4', '5', 'h', '7', '6', '9'].map
            (fun c => BitVec.ofNat 8 c.toNat) ∧
  lutRom.Nodup ∧ ∀ c ∈ lutRom, 0x30 ≤ c.toNat ∧ c.toNat ≤ 0x7A ∧ c.getLsbD 7 = false

/-- R62: the code on `out_data` is `LUT[v]` for the group value `v` at the cursor, one of the 32, bit 7 clear, and 0x00 where no
character is offered. -/
def Obligations.OutDataCodes : Prop :=
  ∀ (s : State) (c : Byte), (outputs s).outData = some c →
    ((outputs s).outValid = true →
      (∃ v, currentGroup s = .ok v ∧ c = lut v) ∧ c ∈ lutRom ∧ c.getLsbD 7 = false) ∧ ((outputs s).outValid = false → c = 0)

/-- R26, R98: the status outputs are the registers, and the outputs of each phase. -/
def Obligations.OutputsByPhase : Prop :=
  ∀ s : State,
    ((outputs s).busy = true ↔ s.phase = .busy) ∧ ((outputs s).fault = true ↔ s.phase = .fault) ∧
    (outputs s).done = s.done ∧ (outputs s).errcode = s.errcode.code ∧ (outputs s).errcmd = s.errcmd ∧
    (outputs s).lenQ = s.len ∧ (outputs s).bitsQ = s.bits ∧ (outputs s).pQ = s.p ∧ (outputs s).outcntQ = s.outcnt ∧
    (s.phase = .idle → (outputs s).cmdReady = true ∧ (outputs s).outValid = false ∧ (outputs s).outData = some 0) ∧
    (s.phase = .busy → (outputs s).cmdReady = false ∧ (outputs s).outValid = true ∧
      ∀ v, currentGroup s = .ok v → (outputs s).outData = some (lut v)) ∧
    (s.phase = .fault → (outputs s).cmdReady = false ∧ (outputs s).outValid = false ∧ (outputs s).outData = some 0)

/-- R84: every byte the output step reads lies in the input buffer. -/
def Obligations.ReadsInRange : Prop :=
  ∀ s : State, s.Inv → s.phase = .busy →
    s.p.toNat < s.bits.toNat ∧ s.bits.toNat ≤ 8 * s.len.toNat ∧ byteIndex s < s.len.toNat ∧ 1 ≤ s.len.toNat ∧
    ∀ i ∈ readSet s, i < s.len.toNat ∧ i < s.cfg.maxLen

/-- The output step reads the bytes of its read set and no other: the character does not depend on any other byte of `BUF`
(R37, R47, R85). -/
def Obligations.CharDependsOnReadSet : Prop :=
  ∀ (s : State) (m : Memory), (∀ i ∈ readSet s, Memory.read m i = Memory.read s.buf i) →
    currentChar { s with buf := m } = currentChar s

/-- The model fault of an unwritten byte: a `BUSY` step without reset stops exactly when its output step reads an unwritten byte,
whether or not `out_ready` is 1, and names the first such byte (R45, R85, R111; which of two it names is the model's choice, log
entry 5). -/
def Obligations.UninitReadExactly : Prop :=
  ∀ s : State, s.Inv → s.phase = .busy → (currentInputs s).rst = false →
    ((∀ i ∈ readSet s, written s i = true) → ∃ t, step s = .next t) ∧
    ∀ i, step s = .fault (.uninitRead i) ↔ (readSet s).find? (fun k => !written s k) = some i

/-- Nothing else stops the machine: no step is refused, and the only fault is the read of an unwritten byte below `LEN` in `BUSY`; no
register overflows (R6, R110, R111). -/
def Obligations.OnlyUninitReadStops : Prop :=
  ∀ s : State, s.Inv →
    (∀ r, step s ≠ .refused r) ∧
    (∀ f, step s = .fault f →
      s.phase = .busy ∧ (currentInputs s).rst = false ∧ ∃ i, f = .uninitRead i ∧ i < s.len.toNat ∧ written s i = false) ∧
    (s.phase = .busy → s.bits.toNat ≤ 2 ^ 27 - 8 ∧ s.p.toNat + 5 < 2 ^ 28 ∧ s.outcnt.toNat + 1 < 2 ^ 25)

/-! ### Invariants and whole encodes -/

/-- Every step keeps the invariant. -/
def Obligations.StepKeepsInvariant : Prop :=
  ∀ s t : State, s.Inv → step s = .next t → t.Inv

/-- R86: every code in `OUTLOG` is one of the alphabet's 32, after every step. -/
def Obligations.StepKeepsAlphabet : Prop :=
  ∀ s t : State, s.AlphabetClosed → step s = .next t → t.AlphabetClosed

/-- The log of an encode in progress is the text of the buffer's first groups, and every step keeps it so; at the step that ends the
encode the log is the whole text, `ceil(BITS / 5)` characters (R43, R73, R78, R82). -/
def Obligations.StepKeepsEncodeText : Prop :=
  ∀ s t : State, s.Inv → (s.phase = .busy → s.LogIsText) → step s = .next t →
    (t.phase = .busy → t.LogIsText) ∧
    (s.phase = .busy → (currentInputs s).rst = false → t.phase = .idle →
      t.outlog = streamText s s.bits.toNat ∧ t.outcnt.toNat = groupCount s.bits.toNat ∧ encodeEnded t = true)

/-- R81, R82: whatever the host does without reset while an encode runs (stalls, writes, offered words), the encode that ends has
transferred the text of the buffer as it stood, `ceil(BITS / 5)` characters, and has left `BUF`, `LEN` and `BITS` as they were; the
text depends on `BUF[0 .. LEN-1]` and `LEN` alone. -/
def Obligations.EncodeIgnoresStalls : Prop :=
  (∀ (k : Nat) (s t : State), s.Inv → s.LogIsText →
    (∀ j, j < k → (inputsAt s j).rst = false ∧ ∃ u, runSteps j s = .next u ∧ u.phase = .busy) →
    runSteps k s = .next t → s.phase = .busy → t.phase = .idle →
    t.outlog = streamText s s.bits.toNat ∧ t.outlog.length = groupCount s.bits.toNat ∧
      t.buf = s.buf ∧ t.len = s.len ∧ t.bits = s.bits ∧ encodeEnded t = true) ∧
  ∀ (s s' : State) (n : Nat), s'.len = s.len → (∀ i, i < s.len.toNat → Memory.read s'.buf i = Memory.read s.buf i) →
    streamText s' n = streamText s n

/-- An encode runs to its end: `ENC n` accepted in `IDLE`, every byte of the buffer written, `out_ready = 1` and no reset in the edges
that follow: after the accept edge and `ceil(n / 5)` more, the encode has ended and `OUTLOG` is the text of the first `n` bits, read
from the buffer as it stood after the accept edge (R76, R78, R82, R101, R125, R135). -/
def Obligations.EncodeRunsToItsText : Prop :=
  ∀ (s : State) (n : Operand), s.Inv → accepts s (.enc n) → n.toNat ≤ 8 * s.len.toNat → bufferWritten (edgeStart s) →
    (∀ k, 1 ≤ k → k ≤ groupCount n.toNat → (inputsAt s k).rst = false ∧ (inputsAt s k).outReady = true) →
    ∃ t, runSteps (1 + groupCount n.toNat) s = .next t ∧ encodeEnded t = true ∧
      t.outlog = streamText (edgeStart s) n.toNat ∧ t.bits = n ∧ t.len = s.len ∧ t.buf = (edgeStart s).buf ∧
      t.p.toNat = 5 * groupCount n.toNat ∧ t.outcnt.toNat = groupCount n.toNat

/-- R83: the output of the shorter of two encodes of the same buffer is a prefix of the output of the longer. -/
def Obligations.ShorterEncodeIsPrefix : Prop :=
  ∀ (s : State) (n1 n2 : Operand), s.Inv → s.phase = .idle → bufferWritten s → n1.toNat < n2.toNat →
    n2.toNat ≤ 8 * s.len.toNat →
    ∃ t1 t2,
      runSteps (1 + groupCount n1.toNat)
        { s with cycles := offerInputs (encode (.enc n1)) :: List.replicate (groupCount n1.toNat) Inputs.inactive } = .next t1 ∧
      runSteps (1 + groupCount n2.toNat)
        { s with cycles := offerInputs (encode (.enc n2)) :: List.replicate (groupCount n2.toNat) Inputs.inactive } = .next t2 ∧
      encodeEnded t1 = true ∧ encodeEnded t2 = true ∧ t1.outlog <+: t2.outlog

/-- R133: a reset in `BUSY` ends the encode without `DONE`; what was transferred before is a proper prefix of the full output. -/
def Obligations.ResetMidEncode : Prop :=
  ∀ s : State, s.Inv → s.phase = .busy → s.LogIsText → (currentInputs s).rst = true →
    (∃ t, step s = .next t ∧ t.phase = .idle ∧ t.done = false ∧ t.outlog = []) ∧
    s.outlog <+: streamText s s.bits.toNat ∧ s.outlog.length < groupCount s.bits.toNat

/-- The two examples of R79 and R80: bits past `BITS` inside the buffer are not masked, zeros stand past its end. -/
def Obligations.TailExamples : Prop :=
  (∀ s : State, s.phase = .idle → s.len = 2 → 2 ≤ s.cfg.maxLen → Memory.read s.buf 0 = some 0xFF →
    Memory.read s.buf 1 = some 0xFF → s.cycles = [offerInputs 0x20000007, Inputs.inactive, Inputs.inactive] →
    ∃ t, runSteps 3 s = .next t ∧ t.outlog = [0x39, 0x39] ∧ encodeEnded t = true) ∧
  ∀ s : State, s.phase = .idle → s.len = 1 → Memory.read s.buf 0 = some 0xFF →
    s.cycles = [offerInputs 0x20000008, Inputs.inactive, Inputs.inactive] →
    ∃ t, runSteps 3 s = .next t ∧ t.outlog = [0x39, 0x68] ∧ encodeEnded t = true

/-! ### Host-script notation -/

/-- What the host's actions drive, and when they are over (R64). Two things in it are the model's choice: the lines
`cmd_data`, `buf_addr` and `buf_wdata` are 0 where the action names no value for them (log entry 3), and a `DRAIN` in `IDLE` takes no
cycle (log entry 13). -/
def Obligations.ScriptActions : Prop :=
  ∀ (s : State) (rest : List HostAction),
    (∀ a b, scriptCycle s (.wr a b :: rest) =
      some ({ rst := false, cmdValid := false, cmdData := 0, bufWe := true, bufAddr := a, bufWdata := b, outReady := true }, rest)) ∧
    (∀ w, scriptCycle s (.cmd w :: rest) =
      some ({ rst := false, cmdValid := true, cmdData := w, bufWe := false, bufAddr := 0, bufWdata := 0, outReady := true },
        if s.phase = .idle then rest else .cmd w :: rest)) ∧
    (s.phase = .busy → scriptCycle s (.drain :: rest) = some (Inputs.inactive, .drain :: rest)) ∧
    (s.phase ≠ .busy → scriptCycle s (.drain :: rest) = scriptCycle s rest) ∧
    (∃ inp, scriptCycle s (.reset :: rest) = some (inp, rest) ∧ inp.rst = true)

/-- `LOAD` writes its bytes at rising addresses, in order, and `ENCODE_BYTES` is the load, the length, the encode and the drain
(R65; that an address past 2^24 - 1 wraps is the model's choice, log entry 13). -/
def Obligations.ScriptPseudoActions : Prop :=
  (∀ (a : BufAddr) (bs : List Byte) (k : Nat),
    (loadBytes a bs)[k]? = bs[k]?.map (fun b => HostAction.wr (a + BitVec.ofNat 24 k) b)) ∧
  ∀ bs : List Byte, bs.length < 2 ^ 28 →
    encodeBytes bs = loadBytes 0 bs ++
      [.cmd (0x10000000#32 ||| BitVec.ofNat 32 bs.length), .cmd 0x30000000#32, .drain]
end

