-- ==== Sys2Proof/Laws/State.lean ====
section
/-! SUPPORT. What each named update of the state leaves in each field, once, true by definition. -/

namespace Sys2Proof.Laws

open Sys2Proof.Machine

@[simp] theorem bufWrite_phase (s : State) (i : Nat) (b : Byte) : (bufWrite s i b).phase = s.phase := rfl
@[simp] theorem bufWrite_len (s : State) (i : Nat) (b : Byte) : (bufWrite s i b).len = s.len := rfl
@[simp] theorem bufWrite_bits (s : State) (i : Nat) (b : Byte) : (bufWrite s i b).bits = s.bits := rfl
@[simp] theorem bufWrite_p (s : State) (i : Nat) (b : Byte) : (bufWrite s i b).p = s.p := rfl
@[simp] theorem bufWrite_outcnt (s : State) (i : Nat) (b : Byte) : (bufWrite s i b).outcnt = s.outcnt := rfl
@[simp] theorem bufWrite_done (s : State) (i : Nat) (b : Byte) : (bufWrite s i b).done = s.done := rfl
@[simp] theorem bufWrite_errcode (s : State) (i : Nat) (b : Byte) : (bufWrite s i b).errcode = s.errcode := rfl
@[simp] theorem bufWrite_errcmd (s : State) (i : Nat) (b : Byte) : (bufWrite s i b).errcmd = s.errcmd := rfl
@[simp] theorem bufWrite_buf (s : State) (i : Nat) (b : Byte) : (bufWrite s i b).buf = Memory.write s.buf i b := rfl
@[simp] theorem bufWrite_outlog (s : State) (i : Nat) (b : Byte) : (bufWrite s i b).outlog = s.outlog := rfl
@[simp] theorem bufWrite_cfg (s : State) (i : Nat) (b : Byte) : (bufWrite s i b).cfg = s.cfg := rfl
@[simp] theorem bufWrite_cycles (s : State) (i : Nat) (b : Byte) : (bufWrite s i b).cycles = s.cycles := rfl

@[simp] theorem raiseFault_phase (c : ErrCode) (w : Word) (s : State) : (raiseFault c w s).phase = .fault := rfl
@[simp] theorem raiseFault_len (c : ErrCode) (w : Word) (s : State) : (raiseFault c w s).len = s.len := rfl
@[simp] theorem raiseFault_bits (c : ErrCode) (w : Word) (s : State) : (raiseFault c w s).bits = s.bits := rfl
@[simp] theorem raiseFault_p (c : ErrCode) (w : Word) (s : State) : (raiseFault c w s).p = s.p := rfl
@[simp] theorem raiseFault_outcnt (c : ErrCode) (w : Word) (s : State) : (raiseFault c w s).outcnt = s.outcnt := rfl
@[simp] theorem raiseFault_done (c : ErrCode) (w : Word) (s : State) : (raiseFault c w s).done = false := rfl
@[simp] theorem raiseFault_errcode (c : ErrCode) (w : Word) (s : State) : (raiseFault c w s).errcode = c := rfl
@[simp] theorem raiseFault_errcmd (c : ErrCode) (w : Word) (s : State) : (raiseFault c w s).errcmd = w := rfl
@[simp] theorem raiseFault_buf (c : ErrCode) (w : Word) (s : State) : (raiseFault c w s).buf = s.buf := rfl
@[simp] theorem raiseFault_outlog (c : ErrCode) (w : Word) (s : State) : (raiseFault c w s).outlog = s.outlog := rfl
@[simp] theorem raiseFault_cfg (c : ErrCode) (w : Word) (s : State) : (raiseFault c w s).cfg = s.cfg := rfl
@[simp] theorem raiseFault_cycles (c : ErrCode) (w : Word) (s : State) : (raiseFault c w s).cycles = s.cycles := rfl

@[simp] theorem setLength_phase (n : Operand) (s : State) : (setLength n s).phase = s.phase := rfl
@[simp] theorem setLength_len (n : Operand) (s : State) : (setLength n s).len = lengthOperand n := rfl
@[simp] theorem setLength_bits (n : Operand) (s : State) : (setLength n s).bits = s.bits := rfl
@[simp] theorem setLength_p (n : Operand) (s : State) : (setLength n s).p = s.p := rfl
@[simp] theorem setLength_outcnt (n : Operand) (s : State) : (setLength n s).outcnt = s.outcnt := rfl
@[simp] theorem setLength_done (n : Operand) (s : State) : (setLength n s).done = false := rfl
@[simp] theorem setLength_errcode (n : Operand) (s : State) : (setLength n s).errcode = s.errcode := rfl
@[simp] theorem setLength_errcmd (n : Operand) (s : State) : (setLength n s).errcmd = s.errcmd := rfl
@[simp] theorem setLength_buf (n : Operand) (s : State) : (setLength n s).buf = s.buf := rfl
@[simp] theorem setLength_outlog (n : Operand) (s : State) : (setLength n s).outlog = s.outlog := rfl
@[simp] theorem setLength_cfg (n : Operand) (s : State) : (setLength n s).cfg = s.cfg := rfl
@[simp] theorem setLength_cycles (n : Operand) (s : State) : (setLength n s).cycles = s.cycles := rfl

@[simp] theorem beginEncode_phase (n : Operand) (s : State) : (beginEncode n s).phase = startPhase n s.phase := rfl
@[simp] theorem beginEncode_len (n : Operand) (s : State) : (beginEncode n s).len = s.len := rfl
@[simp] theorem beginEncode_bits (n : Operand) (s : State) : (beginEncode n s).bits = n := rfl
@[simp] theorem beginEncode_p (n : Operand) (s : State) : (beginEncode n s).p = 0 := rfl
@[simp] theorem beginEncode_outcnt (n : Operand) (s : State) : (beginEncode n s).outcnt = 0 := rfl
@[simp] theorem beginEncode_done (n : Operand) (s : State) : (beginEncode n s).done = startDone n := rfl
@[simp] theorem beginEncode_errcode (n : Operand) (s : State) : (beginEncode n s).errcode = s.errcode := rfl
@[simp] theorem beginEncode_errcmd (n : Operand) (s : State) : (beginEncode n s).errcmd = s.errcmd := rfl
@[simp] theorem beginEncode_buf (n : Operand) (s : State) : (beginEncode n s).buf = s.buf := rfl
@[simp] theorem beginEncode_outlog (n : Operand) (s : State) : (beginEncode n s).outlog = [] := rfl
@[simp] theorem beginEncode_cfg (n : Operand) (s : State) : (beginEncode n s).cfg = s.cfg := rfl
@[simp] theorem beginEncode_cycles (n : Operand) (s : State) : (beginEncode n s).cycles = s.cycles := rfl

@[simp] theorem transfer_phase (c : Byte) (s : State) : (transfer c s).phase = transferPhase s := rfl
@[simp] theorem transfer_len (c : Byte) (s : State) : (transfer c s).len = s.len := rfl
@[simp] theorem transfer_bits (c : Byte) (s : State) : (transfer c s).bits = s.bits := rfl
@[simp] theorem transfer_p (c : Byte) (s : State) : (transfer c s).p = s.p + 5 := rfl
@[simp] theorem transfer_outcnt (c : Byte) (s : State) : (transfer c s).outcnt = s.outcnt + 1 := rfl
@[simp] theorem transfer_done (c : Byte) (s : State) : (transfer c s).done = transferDone s := rfl
@[simp] theorem transfer_errcode (c : Byte) (s : State) : (transfer c s).errcode = s.errcode := rfl
@[simp] theorem transfer_errcmd (c : Byte) (s : State) : (transfer c s).errcmd = s.errcmd := rfl
@[simp] theorem transfer_buf (c : Byte) (s : State) : (transfer c s).buf = s.buf := rfl
@[simp] theorem transfer_outlog (c : Byte) (s : State) : (transfer c s).outlog = s.outlog ++ [c] := rfl
@[simp] theorem transfer_cfg (c : Byte) (s : State) : (transfer c s).cfg = s.cfg := rfl
@[simp] theorem transfer_cycles (c : Byte) (s : State) : (transfer c s).cycles = s.cycles := rfl

@[simp] theorem dropCycle_phase (s : State) : (dropCycle s).phase = s.phase := rfl
@[simp] theorem dropCycle_len (s : State) : (dropCycle s).len = s.len := rfl
@[simp] theorem dropCycle_bits (s : State) : (dropCycle s).bits = s.bits := rfl
@[simp] theorem dropCycle_p (s : State) : (dropCycle s).p = s.p := rfl
@[simp] theorem dropCycle_outcnt (s : State) : (dropCycle s).outcnt = s.outcnt := rfl
@[simp] theorem dropCycle_done (s : State) : (dropCycle s).done = s.done := rfl
@[simp] theorem dropCycle_errcode (s : State) : (dropCycle s).errcode = s.errcode := rfl
@[simp] theorem dropCycle_errcmd (s : State) : (dropCycle s).errcmd = s.errcmd := rfl
@[simp] theorem dropCycle_buf (s : State) : (dropCycle s).buf = s.buf := rfl
@[simp] theorem dropCycle_outlog (s : State) : (dropCycle s).outlog = s.outlog := rfl
@[simp] theorem dropCycle_cfg (s : State) : (dropCycle s).cfg = s.cfg := rfl
@[simp] theorem dropCycle_cycles (s : State) : (dropCycle s).cycles = s.cycles.tail := rfl

@[simp] theorem resetWith_phase (c : Config) (cs : List Inputs) : (State.resetWith c cs).phase = .idle := rfl
@[simp] theorem resetWith_len (c : Config) (cs : List Inputs) : (State.resetWith c cs).len = 0 := rfl
@[simp] theorem resetWith_bits (c : Config) (cs : List Inputs) : (State.resetWith c cs).bits = 0 := rfl
@[simp] theorem resetWith_p (c : Config) (cs : List Inputs) : (State.resetWith c cs).p = 0 := rfl
@[simp] theorem resetWith_outcnt (c : Config) (cs : List Inputs) : (State.resetWith c cs).outcnt = 0 := rfl
@[simp] theorem resetWith_done (c : Config) (cs : List Inputs) : (State.resetWith c cs).done = false := rfl
@[simp] theorem resetWith_errcode (c : Config) (cs : List Inputs) : (State.resetWith c cs).errcode = .none := rfl
@[simp] theorem resetWith_errcmd (c : Config) (cs : List Inputs) : (State.resetWith c cs).errcmd = 0 := rfl
@[simp] theorem resetWith_buf (c : Config) (cs : List Inputs) : (State.resetWith c cs).buf = [] := rfl
@[simp] theorem resetWith_outlog (c : Config) (cs : List Inputs) : (State.resetWith c cs).outlog = [] := rfl
@[simp] theorem resetWith_cfg (c : Config) (cs : List Inputs) : (State.resetWith c cs).cfg = c := rfl
@[simp] theorem resetWith_cycles (c : Config) (cs : List Inputs) : (State.resetWith c cs).cycles = cs := rfl

@[simp] theorem withInputs_phase (s : State) (inp : Inputs) : (withInputs s inp).phase = s.phase := rfl
@[simp] theorem withInputs_len (s : State) (inp : Inputs) : (withInputs s inp).len = s.len := rfl
@[simp] theorem withInputs_bits (s : State) (inp : Inputs) : (withInputs s inp).bits = s.bits := rfl
@[simp] theorem withInputs_p (s : State) (inp : Inputs) : (withInputs s inp).p = s.p := rfl
@[simp] theorem withInputs_outcnt (s : State) (inp : Inputs) : (withInputs s inp).outcnt = s.outcnt := rfl
@[simp] theorem withInputs_done (s : State) (inp : Inputs) : (withInputs s inp).done = s.done := rfl
@[simp] theorem withInputs_errcode (s : State) (inp : Inputs) : (withInputs s inp).errcode = s.errcode := rfl
@[simp] theorem withInputs_errcmd (s : State) (inp : Inputs) : (withInputs s inp).errcmd = s.errcmd := rfl
@[simp] theorem withInputs_buf (s : State) (inp : Inputs) : (withInputs s inp).buf = s.buf := rfl
@[simp] theorem withInputs_outlog (s : State) (inp : Inputs) : (withInputs s inp).outlog = s.outlog := rfl
@[simp] theorem withInputs_cfg (s : State) (inp : Inputs) : (withInputs s inp).cfg = s.cfg := rfl
@[simp] theorem withInputs_cycles (s : State) (inp : Inputs) : (withInputs s inp).cycles = inp :: s.cycles.tail := rfl

end Sys2Proof.Laws
end

