-- ==== Sys2Proof/Laws/Commands.lean ====
section
/-! SUPPORT. What each shared operation and each command can do, said once; later proofs cite these and do not unfold the operations
(spec/20_memory.md R36 to R40, spec/40_bit_group_encoder.md R76 to R78, R85, spec/42_sequencer_and_control.md R95 to R97). -/

namespace Sys2Proof.Laws

open Sys2Proof.Machine

/-! ### Widths -/

/-- `MAX_LEN` lies in 1 .. 2^24 - 1 (R5). -/
theorem maxLen_bounds (c : Config) : 1 ≤ c.maxLen ∧ c.maxLen ≤ 2 ^ 24 - 1 := by
  have := c.lastIndex.isLt
  unfold Config.maxLen
  omega

/-- `8 * LEN` fits an operand (R88, R90). -/
theorem bufferBits_lt (s : State) : bufferBits s < 2 ^ 27 := by
  have := s.len.isLt
  unfold bufferBits
  omega

/-- The bit count of `ENCF` is exact (R88). -/
theorem fullBits_toNat (s : State) : (fullBits s).toNat = bufferBits s := by
  have := bufferBits_lt s
  rw [fullBits, BitVec.toNat_ofNat, Nat.mod_eq_of_lt (by omega)]

/-- The operand of a `SETLEN` that does not fault fits `LEN` (R96). -/
theorem lengthOperand_toNat {s : State} {n : Operand} (h : lengthFits s n = true) :
    (lengthOperand n).toNat = n.toNat := by
  have := maxLen_bounds s.cfg
  have : n.toNat ≤ s.cfg.maxLen := of_decide_eq_true h
  rw [lengthOperand, BitVec.toNat_ofNat, Nat.mod_eq_of_lt (by omega)]

/-- The bit offset as a number (R68). -/
theorem bitOffset_toNat (s : State) : (bitOffset s).toNat = s.p.toNat % 8 := by
  rw [bitOffset, BitVec.toNat_ofNat]
  omega

/-! ### Reads and writes of `BUF` -/

/-- A byte read of the buffer, both ways: it answers a byte exactly when the byte exists and is written (R36, R45). -/
theorem bufRead_ok {s : State} {i : Nat} {b : Byte} :
    bufRead s i = .ok b ↔ i < s.cfg.maxLen ∧ Memory.read s.buf i = some b := by
  unfold bufRead
  split
  next h => simp; omega
  next h =>
    have : i < s.cfg.maxLen := by omega
    split <;> simp_all

/-- Why a byte read of the buffer stops. -/
theorem bufRead_error {s : State} {i : Nat} {f : Fault} :
    bufRead s i = .error f ↔
      (s.cfg.maxLen ≤ i ∧ f = .noSuchByte i) ∨
        (i < s.cfg.maxLen ∧ Memory.read s.buf i = none ∧ f = .uninitRead i) := by
  unfold bufRead
  split
  next h =>
    have : ¬ i < s.cfg.maxLen := by omega
    simp [h, this, eq_comm]
  next h =>
    have : i < s.cfg.maxLen := by omega
    cases Memory.read s.buf i <;> simp [h, this, eq_comm]

/-- The four conditions of an effective write (R39). -/
theorem writeEffective_iff {s : State} {inp : Inputs} :
    writeEffective s inp = true ↔
      inp.bufWe = true ∧ inp.rst = false ∧ s.phase = .idle ∧ inp.bufAddr.toNat < s.cfg.maxLen := by
  simp [writeEffective, and_assoc]

/-- The write port changes `BUF` alone (R38 to R40). -/
theorem writePort_eq (s : State) (inp : Inputs) :
    writePort s inp = { s with buf := (writePort s inp).buf } := by
  unfold writePort
  split <;> rfl

/-- A byte of `BUF` after the write port (R39, R40). -/
theorem read_writePort (s : State) (inp : Inputs) (a : Nat) :
    Memory.read (writePort s inp).buf a =
      if writeEffective s inp = true ∧ inp.bufAddr.toNat = a then some inp.bufWdata else Memory.read s.buf a := by
  unfold writePort
  split
  next h => simp [h, read_write]
  next h => simp [h]

/-- The write port keeps the canonical form. -/
theorem writePort_wf {s : State} (inp : Inputs) (h : Memory.wf s.buf) : Memory.wf (writePort s inp).buf := by
  unfold writePort
  split
  · exact write_wf _ _ h
  · exact h

/-- The write port writes below `MAX_LEN` only (R39). -/
theorem writePort_bound {s : State} (inp : Inputs) (h : ∀ c ∈ s.buf, c.1 < s.cfg.maxLen) :
    ∀ c ∈ (writePort s inp).buf, c.1 < s.cfg.maxLen := by
  unfold writePort
  split
  next he =>
    intro c hc
    rcases mem_write hc with rfl | hc
    · simp only [writeEffective, Bool.and_eq_true, decide_eq_true_eq] at he
      exact he.2
    · exact h c hc
  · exact h

/-- Outside `IDLE` the write port does nothing (R40). -/
theorem writePort_of_not_idle {s : State} (inp : Inputs) (h : s.phase ≠ .idle) : writePort s inp = s := by
  simp [writePort, writeEffective, h]

/-! ### The output step -/

/-- The group at the cursor, as its reads (R77). -/
theorem currentGroup_ok {s : State} {v : Group} :
    currentGroup s = .ok v ↔
      ∃ b0 b1, bufRead s (byteIndex s) = .ok b0 ∧ secondByte s = .ok b1 ∧
        v = groupExtract b0 b1 (hasNext s) (bitOffset s) := by
  unfold currentGroup
  cases bufRead s (byteIndex s) <;> cases secondByte s <;> simp [eq_comm]

/-- The character at the cursor is the code of the group (R72). -/
theorem currentChar_ok {s : State} {c : Byte} :
    currentChar s = .ok c ↔ ∃ v, currentGroup s = .ok v ∧ c = lut v := by
  unfold currentChar
  cases currentGroup s <;> simp [eq_comm]

/-- Every code the ROM gives is one of its entries (R72, R86). -/
theorem lut_mem (v : Group) : lut v ∈ lutRom := List.getElem_mem _

/-- A character at the cursor is one of the alphabet (R86). -/
theorem currentChar_mem {s : State} {c : Byte} (h : currentChar s = .ok c) : c ∈ lutRom := by
  obtain ⟨v, -, rfl⟩ := currentChar_ok.mp h
  exact lut_mem v

/-- The character at the cursor is a function of the cursor, the length, the buffer and the parameters (R77, R81). -/
theorem currentChar_congr {s t : State} (hp : t.p = s.p) (hl : t.len = s.len) (hb : t.buf = s.buf)
    (hc : t.cfg = s.cfg) : currentChar t = currentChar s := by
  have hi : byteIndex t = byteIndex s := by simp only [byteIndex, hp]
  have hj : bitOffset t = bitOffset s := by simp only [bitOffset, hp]
  have hn : hasNext t = hasNext s := by simp only [hasNext, hi, hl]
  have hr : ∀ i, bufRead t i = bufRead s i := fun i => by simp only [bufRead, hb, hc]
  simp only [currentChar, currentGroup, secondByte, hi, hj, hn, hr]

/-- Of the inputs the output step reads `out_ready` alone (R78). -/
theorem outputStep_congr {a b : Inputs} (h : a.outReady = b.outReady) (s : State) :
    outputStep a s = outputStep b s := by
  unfold outputStep
  rw [h]

/-- What an output step can answer: a next state, unchanged or after a transfer of the character at the cursor. -/
theorem outputStep_next {inp : Inputs} {s t : State} (h : outputStep inp s = .next t) :
    ∃ c, currentChar s = .ok c ∧ t = if inp.outReady = true then transfer c s else s := by
  unfold outputStep at h
  split at h
  · simp at h
  next c hc =>
    refine ⟨c, hc, ?_⟩
    simpa using h.symm

/-- The text of an encode depends on the buffer's first `LEN` bytes alone (R37, R81). -/
theorem streamBit_congr {s t : State} (hl : t.len = s.len)
    (hb : ∀ i, i < s.len.toNat → Memory.read t.buf i = Memory.read s.buf i) (q : Nat) :
    streamBit t q = streamBit s q := by
  unfold streamBit bufferBits
  rw [hl]
  split
  · rw [hb (q / 8) (by omega)]
  · rfl

/-! ### Commands -/

/-- Every command answers a next state: its own effect, or fault entry under its own condition and code (R76, R88, R96, R97). -/
theorem exec_cases (i : Instr) (s : State) :
    (∃ n, i = .setlen n ∧ n.toNat ≤ s.cfg.maxLen ∧ exec i s = .next (setLength n s)) ∨
    (∃ n, i = .enc n ∧ n.toNat ≤ bufferBits s ∧ exec i s = .next (beginEncode n s)) ∨
    (i = .encf ∧ exec i s = .next (beginEncode (fullBits s) s)) ∨
    (faultCause i s ≠ .none ∧ exec i s = .next (raiseFault (faultCause i s) (encode i) s)) := by
  cases i with
  | setlen n =>
    by_cases h : n.toNat ≤ s.cfg.maxLen
    · exact .inl ⟨n, rfl, h, by simp [exec, execSetlen, lengthFits, h]⟩
    · have h' : s.cfg.maxLen < n.toNat := by omega
      exact .inr (.inr (.inr (by simp [exec, execSetlen, lengthFits, faultCause, h, h'])))
  | enc n =>
    by_cases h : n.toNat ≤ bufferBits s
    · exact .inr (.inl ⟨n, rfl, h, by simp [exec, execEnc, bitsFit, h]⟩)
    · have h' : 8 * s.len.toNat < n.toNat := by unfold bufferBits at h; omega
      exact .inr (.inr (.inr (by simp [exec, execEnc, bitsFit, faultCause, h, h'])))
  | encf => exact .inr (.inr (.inl ⟨rfl, rfl⟩))
  | illegalEncf x => exact .inr (.inr (.inr ⟨by simp [faultCause], rfl⟩))
  | illegal0 x => exact .inr (.inr (.inr ⟨by simp [faultCause], rfl⟩))
  | illegal4 x => exact .inr (.inr (.inr ⟨by simp [faultCause], rfl⟩))
  | illegal5 x => exact .inr (.inr (.inr ⟨by simp [faultCause], rfl⟩))
  | illegal6 x => exact .inr (.inr (.inr ⟨by simp [faultCause], rfl⟩))
  | illegal7 x => exact .inr (.inr (.inr ⟨by simp [faultCause], rfl⟩))
  | illegal8 x => exact .inr (.inr (.inr ⟨by simp [faultCause], rfl⟩))
  | illegal9 x => exact .inr (.inr (.inr ⟨by simp [faultCause], rfl⟩))
  | illegalA x => exact .inr (.inr (.inr ⟨by simp [faultCause], rfl⟩))
  | illegalB x => exact .inr (.inr (.inr ⟨by simp [faultCause], rfl⟩))
  | illegalC x => exact .inr (.inr (.inr ⟨by simp [faultCause], rfl⟩))
  | illegalD x => exact .inr (.inr (.inr ⟨by simp [faultCause], rfl⟩))
  | illegalE x => exact .inr (.inr (.inr ⟨by simp [faultCause], rfl⟩))
  | illegalF x => exact .inr (.inr (.inr ⟨by simp [faultCause], rfl⟩))

end Sys2Proof.Laws
end

