-- ==== Sys2Proof/Laws/Encoding.lean ====
section
/-! SUPPORT. The two fields of a command word, both ways (spec/30_encoding.md R55 to R58). -/

namespace Sys2Proof.Laws

/-- The sixteen opcodes, for a case split. -/
theorem opc_cases : ∀ o : BitVec 4,
    o = 0x0 ∨ o = 0x1 ∨ o = 0x2 ∨ o = 0x3 ∨ o = 0x4 ∨ o = 0x5 ∨ o = 0x6 ∨ o = 0x7 ∨
    o = 0x8 ∨ o = 0x9 ∨ o = 0xA ∨ o = 0xB ∨ o = 0xC ∨ o = 0xD ∨ o = 0xE ∨ o = 0xF := by decide

theorem opcField_commandWord (o : BitVec 4) (x : Operand) : opcField (commandWord o x) = o := by
  apply BitVec.eq_of_getLsbD_eq
  intro i hi
  rw [opcField, BitVec.getLsbD_extractLsb', commandWord, BitVec.getLsbD_append]
  simp [hi]

theorem operandField_commandWord (o : BitVec 4) (x : Operand) : operandField (commandWord o x) = x := by
  apply BitVec.eq_of_getLsbD_eq
  intro i hi
  rw [operandField, BitVec.getLsbD_extractLsb', commandWord, BitVec.getLsbD_append]
  simp [hi]

/-- A word is its two fields (R55). -/
theorem commandWord_fields (w : Word) : commandWord (opcField w) (operandField w) = w := by
  apply BitVec.eq_of_getLsbD_eq
  intro i hi
  rw [commandWord, BitVec.getLsbD_append]
  by_cases h : i < 28
  · simp only [h, operandField, BitVec.getLsbD_extractLsb']
    simp
  · simp only [h, opcField, BitVec.getLsbD_extractLsb']
    rw [show 28 + (i - 28) = i by omega]
    simp
    intro
    omega

/-- The opcode as a number. -/
theorem opcField_toNat (w : Word) : (opcField w).toNat = w.toNat / 2 ^ 28 := by
  simp [opcField, Nat.shiftRight_eq_div_pow]
  omega

/-- The operand as a number. -/
theorem operandField_toNat (w : Word) : (operandField w).toNat = w.toNat % 2 ^ 28 := by
  simp [operandField]

/-- A command word as the opcode's bits with the operand below them (R63). -/
theorem commandWord_eq_or (o : BitVec 4) (x : Operand) :
    commandWord o x = commandWord o 0 ||| x.setWidth 32 := by
  apply BitVec.eq_of_getLsbD_eq
  intro i hi
  rw [commandWord, commandWord, BitVec.getLsbD_or, BitVec.getLsbD_append, BitVec.getLsbD_append,
    BitVec.getLsbD_setWidth]
  by_cases h : i < 28
  · simp [h, hi]
  · simp only [h, hi, if_false, BitVec.getLsbD_of_ge x i (by omega)]
    simp

/-- `word(SETLEN n)` of R63. -/
theorem encode_setlen (n : Operand) : encode (.setlen n) = 0x10000000#32 ||| n.setWidth 32 := by
  rw [encode, Instr.opc, Instr.operand, commandWord_eq_or, show commandWord 0x1 0 = 0x10000000#32 by decide]

/-- `word(ENC n)` of R63. -/
theorem encode_enc (n : Operand) : encode (.enc n) = 0x20000000#32 ||| n.setWidth 32 := by
  rw [encode, Instr.opc, Instr.operand, commandWord_eq_or, show commandWord 0x2 0 = 0x20000000#32 by decide]

/-- Opcode 0x3 is read as `ENCF` for the operand 0 and as its `ILLEGAL` row for every other (R57). -/
theorem decodeOpc3_cases (x : Operand) :
    (x = 0 ∧ decodeOpc3 x = .encf) ∨ (x ≠ 0 ∧ decodeOpc3 x = .illegalEncf x) := by
  by_cases h : x = 0
  · exact .inl ⟨h, if_pos h⟩
  · exact .inr ⟨h, if_neg h⟩

end Sys2Proof.Laws
end

