-- ==== Sys2Proof/Laws/Extractor.lean ====
section
/-! SUPPORT. The group extractor in exact arithmetic (spec/40_bit_group_encoder.md R71). -/

namespace Sys2Proof.Laws

open Sys2Proof.Machine

/-- The eight bit offsets, for a case split. -/
theorem bitOffset_cases : ∀ j : BitOffset,
    j = 0 ∨ j = 1 ∨ j = 2 ∨ j = 3 ∨ j = 4 ∨ j = 5 ∨ j = 6 ∨ j = 7 := by decide

/-- The two fields of a crossing group do not overlap: their OR is their sum (R71). -/
theorem high_or_low (b0 x ov : Nat) (hov : ov ≤ 5) (hx : x < 2 ^ ov) :
    (b0 <<< ov) &&& 31 ||| x = b0 % 2 ^ (5 - ov) * 2 ^ ov + x := by
  have e : (b0 <<< ov) &&& 31 = (b0 % 2 ^ (5 - ov)) <<< ov := by
    rw [show (31 : Nat) = 2 ^ 5 - 1 by norm_num, Nat.and_two_pow_sub_one_eq_mod, Nat.shiftLeft_eq, Nat.shiftLeft_eq,
      show (2 : Nat) ^ 5 = 2 ^ (5 - ov) * 2 ^ ov by rw [← pow_add, Nat.sub_add_cancel hov], Nat.mul_mod_mul_right]
  rw [e, ← Nat.shiftLeft_add_eq_or_of_lt hx, Nat.shiftLeft_eq]

/-- The group as a number: inside one byte, a field of it; across two, the low bits of the first above the top bits of the second. -/
theorem groupExtract_toNat (b0 b1 : Byte) (hasNext : Bool) (j : BitOffset) :
    (groupExtract b0 b1 hasNext j).toNat =
      if j.toNat ≤ 3 then b0.toNat / 2 ^ (3 - j.toNat) % 32
      else b0.toNat % 2 ^ (8 - j.toNat) * 2 ^ (j.toNat - 3) + if hasNext then b1.toNat / 2 ^ (11 - j.toNat) else 0 := by
  have h0 := b0.isLt
  have h1 := b1.isLt
  unfold groupExtract
  split
  next h =>
    rw [BitVec.toNat_ofNat, show (31 : Nat) = 2 ^ 5 - 1 by norm_num, Nat.and_two_pow_sub_one_eq_mod,
      Nat.shiftRight_eq_div_pow, Nat.mod_mod]
  next h =>
    have hj := j.isLt
    have low : (if hasNext then b1.toNat >>> (8 - (j.toNat - 3)) else 0) < 2 ^ (j.toNat - 3) := by
      split
      · rw [Nat.shiftRight_eq_div_pow, Nat.div_lt_iff_lt_mul (by positivity), ← pow_add,
          show j.toNat - 3 + (8 - (j.toNat - 3)) = 8 by omega]
        exact h1
      · positivity
    simp only [BitVec.toNat_ofNat]
    rw [high_or_low _ _ _ (by omega) low, show 5 - (j.toNat - 3) = 8 - j.toNat by omega,
      show 8 - (j.toNat - 3) = 11 - j.toNat by omega, Nat.shiftRight_eq_div_pow]
    apply Nat.mod_eq_of_lt
    rw [show 8 - (j.toNat - 3) = 11 - j.toNat by omega, Nat.shiftRight_eq_div_pow] at low
    have high := Nat.mod_lt b0.toNat (show 0 < 2 ^ (8 - j.toNat) by positivity)
    have e : 2 ^ (8 - j.toNat) * 2 ^ (j.toNat - 3) = (2 : Nat) ^ 5 := by
      rw [← pow_add, show 8 - j.toNat + (j.toNat - 3) = 5 by omega]
    have : (b0.toNat % 2 ^ (8 - j.toNat) + 1) * 2 ^ (j.toNat - 3) ≤ 2 ^ (8 - j.toNat) * 2 ^ (j.toNat - 3) :=
      Nat.mul_le_mul_right _ high
    rw [Nat.add_mul, e] at this
    omega

end Sys2Proof.Laws
end

