-- ==== Sys2Proof/Laws/PerInstr.lean ====
section
/-! SUPPORT. The family `MatchesRow`: the word of a command meets the match and mask of its row of the opcode table
(spec/30_encoding.md R57). One lemma per constructor. -/

namespace Sys2Proof.Laws.MatchesRow

/-- The word of `i` meets the match and mask columns of its row. -/
def Statement (i : Instr) : Prop := encode i &&& i.rowMask = i.rowMatch

/-- Masking a command word with the opcode's bits leaves the opcode. -/
theorem commandWord_and_mask (o : BitVec 4) (x : Operand) :
    commandWord o x &&& 0xF0000000#32 = commandWord o 0 := by
  apply BitVec.eq_of_getLsbD_eq
  intro i hi
  have mask : (0xF0000000#32).getLsbD i = decide (28 ≤ i) := by
    revert i
    decide
  simp only [commandWord, BitVec.getLsbD_and, BitVec.getLsbD_append, mask]
  by_cases h : i < 28
  · simp [h]
  · simp [h, Nat.le_of_not_lt h]

theorem setlen (n : Operand) : Statement (.setlen n) := commandWord_and_mask _ n

theorem enc (n : Operand) : Statement (.enc n) := commandWord_and_mask _ n

theorem encf : Statement .encf := by
  unfold Statement
  decide

theorem illegalEncf (x : Operand) : Statement (.illegalEncf x) := commandWord_and_mask _ x

theorem illegal0 (x : Operand) : Statement (.illegal0 x) := commandWord_and_mask _ x

theorem illegal4 (x : Operand) : Statement (.illegal4 x) := commandWord_and_mask _ x

theorem illegal5 (x : Operand) : Statement (.illegal5 x) := commandWord_and_mask _ x

theorem illegal6 (x : Operand) : Statement (.illegal6 x) := commandWord_and_mask _ x

theorem illegal7 (x : Operand) : Statement (.illegal7 x) := commandWord_and_mask _ x

theorem illegal8 (x : Operand) : Statement (.illegal8 x) := commandWord_and_mask _ x

theorem illegal9 (x : Operand) : Statement (.illegal9 x) := commandWord_and_mask _ x

theorem illegalA (x : Operand) : Statement (.illegalA x) := commandWord_and_mask _ x

theorem illegalB (x : Operand) : Statement (.illegalB x) := commandWord_and_mask _ x

theorem illegalC (x : Operand) : Statement (.illegalC x) := commandWord_and_mask _ x

theorem illegalD (x : Operand) : Statement (.illegalD x) := commandWord_and_mask _ x

theorem illegalE (x : Operand) : Statement (.illegalE x) := commandWord_and_mask _ x

theorem illegalF (x : Operand) : Statement (.illegalF x) := commandWord_and_mask _ x

end Sys2Proof.Laws.MatchesRow
end

