-- ==== Sys2Proof/Laws/Step.lean ====
section
/-! SUPPORT. What one clock edge can do, said once (spec/42_sequencer_and_control.md R99). -/

namespace Sys2Proof.Laws

open Sys2Proof.Machine

/-- The state an edge's work starts from: the inputs used up, `BUF` as the write port leaves it, all else as before. -/
theorem edgeStart_eq (s : State) :
    edgeStart s = { s with cycles := s.cycles.tail, buf := (edgeStart s).buf } := by
  rw [edgeStart, writePort_eq]
  rfl

@[simp] theorem edgeStart_phase (s : State) : (edgeStart s).phase = s.phase := by rw [edgeStart_eq]
@[simp] theorem edgeStart_len (s : State) : (edgeStart s).len = s.len := by rw [edgeStart_eq]
@[simp] theorem edgeStart_bits (s : State) : (edgeStart s).bits = s.bits := by rw [edgeStart_eq]
@[simp] theorem edgeStart_p (s : State) : (edgeStart s).p = s.p := by rw [edgeStart_eq]
@[simp] theorem edgeStart_outcnt (s : State) : (edgeStart s).outcnt = s.outcnt := by rw [edgeStart_eq]
@[simp] theorem edgeStart_done (s : State) : (edgeStart s).done = s.done := by rw [edgeStart_eq]
@[simp] theorem edgeStart_errcode (s : State) : (edgeStart s).errcode = s.errcode := by rw [edgeStart_eq]
@[simp] theorem edgeStart_errcmd (s : State) : (edgeStart s).errcmd = s.errcmd := by rw [edgeStart_eq]
@[simp] theorem edgeStart_outlog (s : State) : (edgeStart s).outlog = s.outlog := by rw [edgeStart_eq]
@[simp] theorem edgeStart_cfg (s : State) : (edgeStart s).cfg = s.cfg := by rw [edgeStart_eq]
@[simp] theorem edgeStart_cycles (s : State) : (edgeStart s).cycles = s.cycles.tail := by rw [edgeStart_eq]

/-- A byte of `BUF` as an edge's work finds it (R39). -/
theorem read_edgeStart (s : State) (a : Nat) :
    Memory.read (edgeStart s).buf a =
      if writeEffective s (currentInputs s) = true ∧ (currentInputs s).bufAddr.toNat = a
      then some (currentInputs s).bufWdata else Memory.read s.buf a :=
  read_writePort _ _ _

/-- Outside `IDLE` an edge's work finds `BUF` as it was (R40). -/
theorem edgeStart_of_not_idle {s : State} (h : s.phase ≠ .idle) : edgeStart s = dropCycle s :=
  writePort_of_not_idle _ h

/-- The state an `IDLE` edge's work starts from, written out (R39, R99). -/
theorem edgeStart_of_idle {s : State} (hp : s.phase = .idle) (hr : (currentInputs s).rst = false) :
    edgeStart s =
      { s with
        cycles := s.cycles.tail
        buf := if (currentInputs s).bufWe = true ∧ (currentInputs s).bufAddr.toNat < s.cfg.maxLen
          then Memory.write s.buf (currentInputs s).bufAddr.toNat (currentInputs s).bufWdata else s.buf } := by
  rw [edgeStart_eq]
  congr 1
  unfold edgeStart writePort
  by_cases h : (currentInputs s).bufWe = true ∧ (currentInputs s).bufAddr.toNat < s.cfg.maxLen
  · rw [if_pos h, if_pos (writeEffective_iff (s := dropCycle s) |>.mpr ⟨h.1, hr, hp, h.2⟩)]
    rfl
  · rw [if_neg h, if_neg (fun e => h ⟨(writeEffective_iff (s := dropCycle s) |>.mp e).1, (writeEffective_iff (s := dropCycle s) |>.mp e).2.2.2⟩)]
    rfl

/-- A word is accepted: the conditions (R94). -/
theorem acceptsCommand_iff {s : State} :
    acceptsCommand s = true ↔
      (currentInputs s).rst = false ∧ s.phase = .idle ∧ (currentInputs s).cmdValid = true := by
  simp [acceptsCommand, and_assoc]

/-- An output transfer completes: the conditions (R78). -/
theorem transfers_iff {s : State} :
    transfers s = true ↔
      (currentInputs s).rst = false ∧ s.phase = .busy ∧ (currentInputs s).outReady = true := by
  simp [transfers, and_assoc]

@[simp] theorem currentInputs_withInputs (s : State) (inp : Inputs) : currentInputs (withInputs s inp) = inp := rfl

@[simp] theorem dropCycle_withInputs (s : State) (inp : Inputs) : dropCycle (withInputs s inp) = dropCycle s := rfl

/-- The work of an edge whose inputs are given. -/
theorem edgeWork_withInputs (s : State) (inp : Inputs) :
    edgeWork (withInputs s inp) =
      if inp.rst then .reset
      else
        match s.phase with
        | .idle => if inp.cmdValid then .accept inp.cmdData else .hold
        | .busy => .output
        | .fault => .hold := rfl

/-- The command port plays no part in what an edge's work starts from. -/
theorem edgeStart_withInputs {s : State} {inp : Inputs} (hr : inp.rst = (currentInputs s).rst)
    (hw : inp.bufWe = (currentInputs s).bufWe) (ha : inp.bufAddr = (currentInputs s).bufAddr)
    (hd : inp.bufWdata = (currentInputs s).bufWdata) : edgeStart (withInputs s inp) = edgeStart s := by
  unfold edgeStart writePort writeEffective
  rw [currentInputs_withInputs, hr, hw, ha, hd]
  rfl

/-- What a step that answers a next state did: a reset, an accepted command, an output step, or nothing but the write port. -/
theorem step_next {s t : State} (h : step s = .next t) :
    ((currentInputs s).rst = true ∧ t = State.resetWith s.cfg s.cycles.tail) ∨
    ((currentInputs s).rst = false ∧ s.phase = .idle ∧ (currentInputs s).cmdValid = true ∧
      exec (decode (currentInputs s).cmdData) (edgeStart s) = .next t) ∨
    ((currentInputs s).rst = false ∧ s.phase = .busy ∧
      ∃ c, currentChar s = .ok c ∧
        t = if (currentInputs s).outReady = true then transfer c (dropCycle s) else dropCycle s) ∨
    ((currentInputs s).rst = false ∧ (s.phase = .idle ∧ (currentInputs s).cmdValid = false ∨ s.phase = .fault) ∧
      t = edgeStart s) := by
  unfold step edgeWork at h
  by_cases hr : (currentInputs s).rst = true
  · left
    simp only [hr, if_true, resetEdge, dropCycle_cfg, dropCycle_cycles] at h
    exact ⟨hr, (Host.Outcome.next.inj h).symm⟩
  · right
    simp only [Bool.not_eq_true] at hr
    simp only [hr] at h
    cases hp : s.phase with
    | idle =>
      by_cases hv : (currentInputs s).cmdValid = true
      · left
        simp only [hp, hv] at h
        exact ⟨hr, rfl, hv, by simpa using h⟩
      · right; right
        simp only [Bool.not_eq_true] at hv
        simp only [hp, hv] at h
        exact ⟨hr, .inl ⟨rfl, hv⟩, by simpa using h.symm⟩
    | busy =>
      right; left
      simp only [hp] at h
      rw [edgeStart_of_not_idle (by simp [hp])] at h
      obtain ⟨c, hc, ht⟩ := outputStep_next (by simpa using h)
      exact ⟨hr, rfl, c, by rw [← hc]; exact (currentChar_congr rfl rfl rfl rfl).symm, ht⟩
    | fault =>
      right; right
      simp only [hp] at h
      exact ⟨hr, .inr rfl, by simpa using h.symm⟩

/-- A `BUSY` step without reset, as the character it computes (R77, R78, R85). -/
theorem step_of_busy {s : State} (hp : s.phase = .busy) (hr : (currentInputs s).rst = false) :
    step s = match currentChar s with
      | .error f => .fault f
      | .ok c => .next (if (currentInputs s).outReady = true then transfer c (dropCycle s) else dropCycle s) := by
  have hc : currentChar (dropCycle s) = currentChar s := currentChar_congr rfl rfl rfl rfl
  have he : edgeStart s = dropCycle s := edgeStart_of_not_idle (by simp [hp])
  simp only [step, edgeWork, hr, hp, outputStep, he, hc]
  rfl

/-- An `IDLE` step with a word offered is the command's (R94, R95). -/
theorem step_of_accept {s : State} (hp : s.phase = .idle) (hr : (currentInputs s).rst = false)
    (hv : (currentInputs s).cmdValid = true) :
    step s = exec (decode (currentInputs s).cmdData) (edgeStart s) := by
  simp [step, edgeWork, hr, hp, hv]

/-- The invariant says nothing about what the host drives. -/
theorem inv_withCycles {s : State} (h : s.Inv) (cs : List Inputs) : ({ s with cycles := cs } : State).Inv :=
  ⟨h.1, h.2, h.3, h.4, h.5, h.6, h.7, h.8, h.9, h.10, h.11, h.12⟩

/-- The rest of a schedule, seen one edge later. -/
theorem inputsAt_of_cycles_tail {s t : State} (h : t.cycles = s.cycles.tail) (k : Nat) :
    inputsAt t k = inputsAt s (k + 1) := by
  unfold inputsAt
  rw [h]
  cases s.cycles <;> simp [List.getD]

/-- A run of `k + 1` edges is one step and a run of `k`. -/
theorem runSteps_succ {s t : State} (h : step s = .next t) (k : Nat) : runSteps (k + 1) s = runSteps k t := by
  rw [runSteps, h]

/-- `runSteps` is the host's run of the machine. -/
theorem runSteps_eq_run (k : Nat) (s : State) : runSteps k s = core.run k s := by
  induction k generalizing s with
  | zero => rfl
  | succ k ih =>
    cases h : step s with
    | next t =>
      have hc : core.step s = .next t := h
      simp only [runSteps, h, Host.Core.run, hc]
      exact ih t
    | fault f =>
      have hc : core.step s = .fault f := h
      simp only [runSteps, h, Host.Core.run, hc]
      rfl
    | refused r =>
      have hc : core.step s = .refused r := h
      simp only [runSteps, h, Host.Core.run, hc]
      rfl

end Sys2Proof.Laws
end

