-- ==== Sys2Proof/Tests/Slice0.lean ====
section
/-! SUPPORT. The model's own tests. Expected results are the spec's: its encodings (spec/30_encoding.md), its vectors and programs
(spec/95_test_vectors.md). The witnesses show that the hypotheses of each statement can be met. -/

namespace Sys2Proof.Tests

open Sys2Proof.Machine

/-! ### Decoding: one word per row of the opcode table, written from its encoding -/

/-- V-SL-1: SETLEN 3. -/
theorem test_decode_setlen : decode (0b00010000000000000000000000000011 : Word) = .setlen 3 := by decide

/-- V-SRC-4: ENC 393. -/
theorem test_decode_enc : decode (0b00100000000000000000000110001001 : Word) = .enc 393 := by decide

/-- V-ENCF-1: ENCF. -/
theorem test_decode_encf : decode (0b00110000000000000000000000000000 : Word) = .encf := by decide

/-- V-ENCF-8. -/
theorem test_decode_illegalEncf : decode (0b00111111111111111111111111111111 : Word) = .illegalEncf 0x0FFFFFFF := by decide

/-- V-IL-2. -/
theorem test_decode_illegal0 : decode (0b00000000000000000000000000101010 : Word) = .illegal0 0x2A := by decide

/-- V-IL-3. -/
theorem test_decode_illegal4 : decode (0b01000000000000000000000000000000 : Word) = .illegal4 0 := by decide

/-- R104. -/
theorem test_decode_illegal5 : decode (0b01011000000000000000000000000000 : Word) = .illegal5 0x8000000 := by decide

/-- R104. -/
theorem test_decode_illegal6 : decode (0b01100000000000000000000000000001 : Word) = .illegal6 0x1 := by decide

/-- R104. -/
theorem test_decode_illegal7 : decode (0b01111000000000000000000000000000 : Word) = .illegal7 0x8000000 := by decide

/-- R104. -/
theorem test_decode_illegal8 : decode (0b10000000000000000000000000000001 : Word) = .illegal8 0x1 := by decide

/-- R104. -/
theorem test_decode_illegal9 : decode (0b10011000000000000000000000000000 : Word) = .illegal9 0x8000000 := by decide

/-- R104. -/
theorem test_decode_illegalA : decode (0b10100000000000000000000000000001 : Word) = .illegalA 0x1 := by decide

/-- R104. -/
theorem test_decode_illegalB : decode (0b10111000000000000000000000000000 : Word) = .illegalB 0x8000000 := by decide

/-- R104. -/
theorem test_decode_illegalC : decode (0b11000000000000000000000000000001 : Word) = .illegalC 0x1 := by decide

/-- R104. -/
theorem test_decode_illegalD : decode (0b11011000000000000000000000000000 : Word) = .illegalD 0x8000000 := by decide

/-- R104. -/
theorem test_decode_illegalE : decode (0b11100000000000000000000000000001 : Word) = .illegalE 0x1 := by decide

/-- V-IL-5. -/
theorem test_decode_illegalF : decode (0b11111111111111111111111111111111 : Word) = .illegalF 0x0FFFFFFF := by decide

/-- The opcode-table numbering of a word; a command has 32 bits (R60). -/
theorem test_table_word :
    decodeTableWord 32 0x20000040 = some (.enc 64) ∧ decodeTableWord 32 0x30000000 = some .encf ∧
    decodeTableWord 40 0x30000000 = none := by decide

/-- The one ill-formed term: opcode 0x3 with operand 0 is `ENCF`, not an `ILLEGAL` row (R57, R105). -/
theorem test_wellFormed_refuses : Instr.wellFormed (.illegalEncf 0) = false := by decide

/-! ### A small block -/

/-- The state after a step, if there is one. -/
def after (o : Host.Outcome State Fault Refusal) : Option State :=
  match o with
  | .next t => some t
  | .fault _ => none
  | .refused _ => none

/-- The fault of a step, if it stopped with one. -/
def stop (o : Host.Outcome State Fault Refusal) : Option Fault :=
  match o with
  | .next _ => none
  | .fault f => some f
  | .refused _ => none

/-- `IDLE`, `LEN = 2`, `BUF[0 .. 1] = FF FF`, the host driving `cs`. -/
def idle2 (cs : List Inputs) : State :=
  { State.resetWith Config.block64 cs with len := 2, buf := [(0, 0xFF), (1, 0xFF)] }

/-- The encode of 7 bits of that buffer at its first group. -/
def busy2 (cs : List Inputs) : State := { idle2 cs with phase := .busy, bits := 7 }

/-- The same encode at its second and last group, the first character transferred. -/
def busyLast (cs : List Inputs) : State := { busy2 cs with p := 5, outcnt := 1, outlog := [0x39] }

/-- The block after `ENC 17` on that buffer (program P3). -/
def faulted (cs : List Inputs) : State :=
  { idle2 cs with phase := .fault, errcode := .insufficientInput, errcmd := 0x20000011 }

/-- An edge with `rst = 1` and everything else asserted. -/
def resetInputs : Inputs :=
  { rst := true, cmdValid := true, cmdData := 0x30000000, bufWe := true, bufAddr := 0, bufWdata := 0xAA, outReady := true }

/-- An edge with a write of 0x55 at `a`, and nothing else. -/
def writeInputs (a : BufAddr) : Inputs := { Inputs.inactive with bufWe := true, bufAddr := a, bufWdata := 0x55 }

/-- An edge with nothing driven and `out_ready = 0`. -/
def stallInputs : Inputs := { Inputs.inactive with outReady := false }

theorem idle2_inv (cs : List Inputs) : (idle2 cs).Inv :=
  Laws.inv_withCycles (s := idle2 []) (by constructor <;> decide) cs

theorem busy2_inv (cs : List Inputs) : (busy2 cs).Inv :=
  Laws.inv_withCycles (s := busy2 []) (by constructor <;> decide) cs

theorem busyLast_inv (cs : List Inputs) : (busyLast cs).Inv :=
  Laws.inv_withCycles (s := busyLast []) (by constructor <;> decide) cs

theorem faulted_inv (cs : List Inputs) : (faulted cs).Inv :=
  Laws.inv_withCycles (s := faulted []) (by constructor <;> decide) cs

theorem busyLast_log (cs : List Inputs) : (busyLast cs).LogIsText := by
  show [(0x39 : Byte)] = (List.range 1).map (streamChar (busyLast []))
  decide

/-! ### Commands -/

/-- V-SL-4: `SETLEN 64` with `MAX_LEN = 64` is legal. -/
theorem test_setlen_max :
    (after (step (State.reset.withFetchWord 32 0x10000040))).map (fun t => (t.len, t.phase)) = some (64, .idle) := by decide

/-- V-SL-5: `SETLEN 65` faults and keeps `LEN`. -/
theorem test_setlen_range :
    (after (step ((idle2 []).withFetchWord 32 0x10000041))).map (fun t => (t.len, t.phase, t.errcode, t.errcmd)) =
      some (2, .fault, .lenRange, 0x10000041) := by decide

/-- V-ENC-10, accept: `ENC 16` with `LEN = 2` is every bit of the buffer. -/
theorem test_enc_all_bits :
    (after (step ((idle2 []).withFetchWord 32 0x20000010))).map (fun t => (t.phase, t.bits, t.p, t.done)) =
      some (.busy, 16, 0, false) := by decide

/-- Program P3, c2: `ENC 17` with `LEN = 2` faults and keeps the encode registers. -/
theorem test_enc_too_long :
    (after (step ((idle2 []).withFetchWord 32 0x20000011))).map (fun t => (t.phase, t.errcode, t.errcmd, t.bits)) =
      some (.fault, .insufficientInput, 0x20000011, 0) := by decide

/-- V-ENCF-1: `ENCF` with `LEN = 0` completes in the accept cycle. -/
theorem test_encf_empty :
    (after (step (State.reset.withFetchWord 32 0x30000000))).map (fun t => (t.phase, t.bits, t.done)) =
      some (.idle, 0, true) := by decide

/-- `ENCF` with `LEN = 2` starts an encode of 16 bits (R88). -/
theorem test_encf_two_bytes :
    (after (step ((idle2 []).withFetchWord 32 0x30000000))).map (fun t => (t.phase, t.bits, t.done)) =
      some (.busy, 16, false) := by decide

/-- V-ENCF-7. -/
theorem test_illegal_encf :
    (after (step ((idle2 []).withFetchWord 32 0x30000001))).map (fun t => (t.phase, t.errcode, t.errcmd, t.len)) =
      some (.fault, .illegalCommand, 0x30000001, 2) := by decide

/-- V-IL-1: the all-zero word. -/
theorem test_illegal_zero :
    (after (step (State.reset.withFetchWord 32 0))).map (fun t => (t.phase, t.errcode, t.errcmd)) =
      some (.fault, .illegalCommand, 0) := by decide

/-- V-IL-4. -/
theorem test_illegal_F :
    (after (step (State.reset.withFetchWord 32 0xF0000000))).map (fun t => (t.phase, t.errcode, t.errcmd)) =
      some (.fault, .illegalCommand, 0xF0000000) := by decide

/-! ### Extractor and output step -/

/-- Rows of the table of section 2.1: crossing groups, with and without a next byte. -/
theorem test_groupExtract :
    groupExtract 0xA5 0x3C true 6 = 9 ∧ groupExtract 0xA5 0x3C false 6 = 8 ∧ groupExtract 0x01 0x80 true 7 = 24 ∧
    groupExtract 0x01 0x80 true 3 = 1 ∧ groupExtract 0x00 0xFF true 4 = 1 ∧ groupExtract 0xFF 0xFF false 7 = 16 ∧
    groupExtract 0xA5 0x3C true 2 = 18 ∧ groupExtract 0x80 0x80 true 5 = 2 := by decide

/-- Section 2.2: entries of the ROM. -/
theorem test_lut : lut 0 = 0x79 ∧ lut 10 = 0x6B ∧ lut 16 = 0x6F ∧ lut 18 = 0x31 ∧ lut 31 = 0x39 := by decide

/-- Program P3, c11: the last transfer of `ENC 7` on FF FF; the tail is not masked (V-ENC-9). -/
theorem test_last_transfer :
    (after (step (busyLast []))).map (fun t => (t.phase, t.p, t.outcnt, t.done, t.outlog)) =
      some (.idle, 10, 2, true, [0x39, 0x39]) := by decide

/-- V-HS-1: a stall changes nothing. -/
theorem test_stall : after (step (busy2 [stallInputs])) = some (busy2 []) := by decide

/-- V-RD-2, second group, with `out_ready = 0`: the byte after the first is read and is unwritten. -/
theorem test_uninit_read :
    stop (step { busyLast [stallInputs] with buf := [(0, 0xFF)] }) = some (.uninitRead 1) := by decide

/-- V-RD-3: with `LEN = 1` that byte is not read, and zeros stand in for it. -/
theorem test_zero_padding :
    (after (step { busyLast [] with len := 1, buf := [(0, 0xFF)] })).map State.outlog = some [0x39, 0x68] := by decide

/-! ### Write port, `FAULT`, reset -/

/-- V-WR-1 and V-WR-4: a write below `MAX_LEN` is effective, one at `MAX_LEN` is dropped. -/
theorem test_write_port :
    (after (step (idle2 [writeInputs 5]))).map State.buf = some [(0, 0xFF), (1, 0xFF), (5, 0x55)] ∧
    (after (step (idle2 [writeInputs 64]))).map State.buf = some [(0, 0xFF), (1, 0xFF)] := by decide

/-- Program P4, c3: a write and an accept in the same cycle both take effect. -/
theorem test_write_with_accept :
    (after (step (idle2 [{ writeInputs 0 with cmdValid := true, cmdData := 0x20000005 }]))).map
      (fun t => (t.phase, t.buf)) = some (.busy, [(0, 0x55), (1, 0xFF)]) := by decide

/-- Program P3, c3 and c4: `FAULT` drops the write and the offered word. -/
theorem test_fault_absorbs :
    after (step (faulted [{ writeInputs 0 with cmdValid := true, cmdData := 0x30000000 }])) = some (faulted []) := by decide

/-- V-RS-1, V-RS-2 and V-WR-5: a reset from `BUSY` and from `FAULT`. -/
theorem test_reset :
    after (step (busyLast [resetInputs])) = some State.reset ∧ after (step (faulted [resetInputs])) = some State.reset := by
  decide

/-- The host-script form of program P1, c1: one write action. -/
theorem test_script_write :
    (after (runScript 2 [.wr 0 0x80] State.reset)).map State.buf = some [(0, 0x80)] := by decide

/-- A write keeps rising order and replaces an old byte; equal memories are equal data. -/
theorem test_memory_canonical :
    Memory.write (Memory.write (Memory.write [] 7 1) 3 2) 7 9 = [(3, 2), (7, 9)] ∧
    Memory.wf [(3, (2 : Byte)), (7, 9)] ∧ ¬ Memory.wf [(7, (9 : Byte)), (3, 2)] := by decide

/-! ### Witnesses: the hypotheses of each statement are met -/

theorem witness_DecodeOfEncode :
    Instr.wellFormed (.setlen 0x0FFFFFFF) = true ∧ Instr.wellFormed .encf = true ∧ Instr.wellFormed (.illegalEncf 1) = true := by
  decide

/-- The four decoder clauses at the ends of their ranges; and a word that is not accepted in each phase. -/
theorem witness_DecoderByFields :
    (0x1FFFFFFF#32).toNat / 2 ^ 28 = 1 ∧ (0x20000000#32).toNat / 2 ^ 28 = 2 ∧
    ((0x30000000#32).toNat / 2 ^ 28 = 3 ∧ (0x30000000#32).toNat % 2 ^ 28 = 0) ∧
    (decode 0x30000001#32).isIllegal = true ∧ (decode 0x00000000#32).isIllegal = true ∧
    acceptsCommand (idle2 []) = false ∧ acceptsCommand (busy2 [offerInputs 0]) = false ∧
    acceptsCommand (faulted [offerInputs 0]) = false ∧ acceptsCommand (idle2 [resetInputs]) = false := by decide

theorem witness_AssembledWords : 2 ^ 28 - 1 < 2 ^ 28 ∧ (2 : Nat) ^ 28 ≤ 2 ^ 28 := by decide

theorem witness_ResetEdgeFromAnywhere :
    (currentInputs (busyLast [resetInputs])).rst = true ∧ (currentInputs (faulted [resetInputs])).rst = true := by decide

theorem witness_StepRunsDecodedCommand :
    (currentInputs (idle2 [offerInputs 0x30000000])).rst = false ∧ (idle2 [offerInputs 0x30000000]).phase = .idle ∧
    (currentInputs (idle2 [offerInputs 0x30000000])).cmdValid = true := by decide

/-- An accept; no accept in `BUSY`, at reset, and in `IDLE` with `cmd_valid = 0`, where another word stays unaccepted too. -/
theorem witness_CommandAcceptance :
    ((currentInputs (idle2 [offerInputs 0])).cmdValid = true ∧ cmdReady (idle2 [offerInputs 0]) = true ∧
      (currentInputs (idle2 [offerInputs 0])).rst = false) ∧
    (acceptsCommand (busy2 []) = false ∧ acceptsCommand (withInputs (busy2 []) (offerInputs 1)) = false) ∧
    acceptsCommand (idle2 [resetInputs]) = false ∧
    (acceptsCommand (idle2 []) = false ∧ (idle2 []).phase = .idle ∧ (currentInputs (idle2 [])).rst = false ∧
      acceptsCommand (withInputs (idle2 []) { currentInputs (idle2 []) with cmdData := 1 }) = false) := by decide

theorem witness_CompleteStep :
    (currentInputs (idle2 [resetInputs])).rst = true ∧
    ((currentInputs (idle2 [offerInputs 0])).rst = false ∧ (idle2 [offerInputs 0]).phase = .idle ∧
      (currentInputs (idle2 [offerInputs 0])).cmdValid = true) ∧
    ((currentInputs (idle2 [])).rst = false ∧ (idle2 []).phase = .idle ∧ (currentInputs (idle2 [])).cmdValid = false) ∧
    ((currentInputs (busy2 [])).rst = false ∧ (busy2 []).phase = .busy) ∧
    ((currentInputs (faulted [])).rst = false ∧ (faulted []).phase = .fault) := by decide

/-- An effective write at the last byte, one that is dropped, a reset. -/
theorem witness_EffectiveWrites :
    (after (step (idle2 [writeInputs 63]))).isSome = true ∧ (after (step (idle2 [writeInputs 64]))).isSome = true ∧
    (after (step (idle2 [resetInputs]))).isSome = true := by decide

theorem witness_EffectiveWrites_next : ∃ t, step (idle2 [writeInputs 63]) = .next t := ⟨_, rfl⟩

theorem witness_IneffectiveWritesDoNothing :
    ¬ ((currentInputs (busy2 [writeInputs 0])).bufWe = true ∧ (currentInputs (busy2 [writeInputs 0])).rst = false ∧
        (busy2 [writeInputs 0]).phase = .idle ∧
        (currentInputs (busy2 [writeInputs 0])).bufAddr.toNat < (busy2 [writeInputs 0]).cfg.maxLen) ∧
    ¬ ((currentInputs (idle2 [writeInputs 64])).bufWe = true ∧ (currentInputs (idle2 [writeInputs 64])).rst = false ∧
        (idle2 [writeInputs 64]).phase = .idle ∧
        (currentInputs (idle2 [writeInputs 64])).bufAddr.toNat < (idle2 [writeInputs 64]).cfg.maxLen) := by decide

theorem witness_FaultAbsorbs :
    ((faulted []).phase = .fault ∧ (currentInputs (faulted [])).rst = false) ∧
    ((faulted [resetInputs]).phase = .fault ∧ (currentInputs (faulted [resetInputs])).rst = true) := by decide

/-- A step for each transition of R18. -/
theorem witness_PhaseTransitions :
    (∃ t, step (busy2 [resetInputs]) = .next t ∧ (currentInputs (busy2 [resetInputs])).rst = true) ∧
    (∃ t, step (idle2 []) = .next t ∧ (currentInputs (idle2 [])).rst = false ∧ t.phase = .idle) ∧
    (∃ t, step (idle2 [offerInputs 0x20000001]) = .next t ∧ t.phase = .busy) ∧
    (∃ t, step (idle2 [offerInputs 0x20000011]) = .next t ∧ t.phase = .fault) ∧
    (∃ t, step (busyLast []) = .next t ∧ t.phase = .idle) ∧
    (∃ t, step (busy2 []) = .next t ∧ t.phase = .busy) ∧
    (∃ t, step (faulted []) = .next t ∧ t.phase = .fault) :=
  ⟨⟨_, rfl, rfl⟩, ⟨_, rfl, rfl, rfl⟩, ⟨_, rfl, rfl⟩, ⟨_, rfl, rfl⟩, ⟨_, rfl, rfl⟩, ⟨_, rfl, rfl⟩, ⟨_, rfl, rfl⟩⟩

/-- Steps that change `LEN`, `BITS`, `P`, `OUTCNT`, `DONE`, `PHASE`, `ERRCODE` and `ERRCMD`. -/
theorem witness_RegisterWriters :
    (∃ t, step (idle2 [offerInputs 0x10000003]) = .next t ∧ (currentInputs (idle2 [offerInputs 0x10000003])).rst = false ∧
      t.len ≠ (idle2 []).len) ∧
    (∃ t, step (idle2 [offerInputs 0x20000007]) = .next t ∧ t.bits ≠ (idle2 []).bits ∧ t.phase ≠ .idle) ∧
    (∃ t, step (busyLast []) = .next t ∧ t.p ≠ 5 ∧ t.outcnt ≠ 1 ∧ t.done ≠ false) ∧
    (∃ t, step (idle2 [offerInputs 0x00000001]) = .next t ∧ t.errcode ≠ .none ∧ t.errcmd ≠ 0) :=
  ⟨⟨_, rfl, by decide, by decide⟩, ⟨_, rfl, by decide, by decide⟩, ⟨_, rfl, by decide, by decide, by decide⟩,
    ⟨_, rfl, by decide, by decide⟩⟩

theorem witness_ScheduleAdvances : ∃ t, step (idle2 [stallInputs, resetInputs]) = .next t := ⟨_, rfl⟩

theorem witness_SetlenEffect :
    (64#28).toNat ≤ (idle2 []).cfg.maxLen ∧ (idle2 []).cfg.maxLen < (65#28).toNat ∧
    (idle2 []).phase = .idle ∧ State.reset.len = 0 ∧ State.reset.phase = .idle ∧ (1 : Operand) ≠ 0 := by decide

theorem witness_EncEffect :
    ((16#28).toNat ≤ 8 * (idle2 []).len.toNat ∧ (16 : Operand) ≠ 0) ∧ 8 * (idle2 []).len.toNat < (17#28).toNat ∧
    2 ^ 27 ≤ (0x8000000#28).toNat ∧ (idle2 []).phase = .idle := by decide

/-- The worked example of R76. -/
def oneByte : State :=
  { State.resetWith Config.block64 [offerInputs 0x20000005, Inputs.inactive] with len := 1, buf := [(0, 0x80)] }

theorem witness_EncEffect_example :
    oneByte.phase = .idle ∧ oneByte.len = 1 ∧ Memory.read oneByte.buf 0 = some 0x80 ∧
    oneByte.cycles = [offerInputs 0x20000005, Inputs.inactive] := by decide

theorem witness_EncfEffect : ((idle2 []).phase = .idle ∧ (idle2 []).len ≠ 0) ∧ State.reset.phase = .idle ∧ State.reset.len = 0 := by
  decide

theorem witness_EncfNeverFaults : (idle2 []).phase = .idle ∧ State.reset.phase = .idle := by decide

theorem witness_EncfIsEncOfFullLength :
    (idle2 []).phase = .idle ∧ (offerInputs 0).rst = false ∧ (offerInputs 0).cmdValid = true := by decide

theorem witness_IllegalRowsFault :
    (idle2 []).phase = .idle ∧
    Instr.isIllegal (.illegalEncf 1) = true ∧ Instr.isIllegal (.illegal0 0) = true ∧ Instr.isIllegal (.illegal4 0) = true ∧
    Instr.isIllegal (.illegal5 0) = true ∧ Instr.isIllegal (.illegal6 0) = true ∧ Instr.isIllegal (.illegal7 0) = true ∧
    Instr.isIllegal (.illegal8 0) = true ∧ Instr.isIllegal (.illegal9 0) = true ∧ Instr.isIllegal (.illegalA 0) = true ∧
    Instr.isIllegal (.illegalB 0) = true ∧ Instr.isIllegal (.illegalC 0) = true ∧ Instr.isIllegal (.illegalD 0) = true ∧
    Instr.isIllegal (.illegalE 0) = true ∧ Instr.isIllegal (.illegalF 0) = true := by decide

/-- The three ranges of illegal words, at their ends. -/
theorem witness_IllegalWordsFault :
    acceptsCommand (idle2 [offerInputs 0x0FFFFFFF]) = true ∧ (0x0FFFFFFF#32).toNat / 2 ^ 28 = 0 ∧
    4 ≤ (0x40000000#32).toNat / 2 ^ 28 ∧
    ((0x30000001#32).toNat / 2 ^ 28 = 3 ∧ (0x30000001#32).toNat % 2 ^ 28 ≠ 0) := by decide

theorem witness_HardwareFaultCauses :
    (∃ t, step (idle2 [offerInputs 0x20000011]) = .next t ∧ (idle2 []).phase ≠ .fault ∧ t.phase = .fault) ∧
    (∃ t, step (idle2 [offerInputs 0x00000000]) = .next t ∧ t.phase = .fault) ∧
    (∃ t, step (idle2 [offerInputs 0x10000041]) = .next t ∧ t.phase = .fault) :=
  ⟨⟨_, rfl, by decide, rfl⟩, ⟨_, rfl, rfl⟩, ⟨_, rfl, rfl⟩⟩

theorem witness_PreciseFaults :
    ∃ t, step (idle2 [{ writeInputs 0 with cmdValid := true, cmdData := 0x20000011 }]) = .next t ∧
      (idle2 []).phase ≠ .fault ∧ t.phase = .fault := ⟨_, rfl, by decide, rfl⟩

/-- One command of each kind, with and without its fault. -/
theorem witness_CommandFrame :
    (∃ t, exec (.setlen 3) (idle2 []) = .next t ∧ faultCause (.setlen 3) (idle2 []) = .none) ∧
    (∃ t, exec (.enc 17) (idle2 []) = .next t ∧ faultCause (.enc 17) (idle2 []) ≠ .none) ∧
    (∃ t, exec .encf (idle2 []) = .next t ∧ ∀ n, Instr.encf ≠ .setlen n) ∧
    (∃ t, exec (.illegal7 0) (idle2 []) = .next t ∧ (∀ n, Instr.illegal7 0 ≠ .enc n) ∧ Instr.illegal7 0 ≠ .encf) :=
  ⟨⟨_, rfl, by decide⟩, ⟨_, rfl, by decide⟩, ⟨_, rfl, nofun⟩,
    ⟨_, rfl, nofun, nofun⟩⟩

theorem witness_DoneAfterStep :
    (∃ t, step (idle2 [resetInputs]) = .next t ∧ (currentInputs (idle2 [resetInputs])).rst = true) ∧
    (∃ t, step (idle2 [offerInputs 0x20000000]) = .next t ∧ accepts (idle2 [offerInputs 0x20000000]) (.enc 0)) ∧
    (∃ t, step (busyLast []) = .next t ∧ transfers (busyLast []) = true) ∧
    (∃ t, step (faulted []) = .next t ∧ (currentInputs (faulted [])).rst = false ∧ acceptsCommand (faulted []) = false ∧
      transfers (faulted []) = false) :=
  ⟨⟨_, rfl, rfl⟩, ⟨_, rfl, by decide, by decide⟩, ⟨_, rfl, rfl⟩, ⟨_, rfl, rfl, rfl, rfl⟩⟩

theorem witness_OutputStepEffect :
    ((busy2 [stallInputs]).phase = .busy ∧ (currentInputs (busy2 [stallInputs])).rst = false ∧
      currentChar (busy2 [stallInputs]) = .ok 0x39 ∧ (currentInputs (busy2 [stallInputs])).outReady = false) ∧
    (currentChar (busyLast []) = .ok 0x39 ∧ (currentInputs (busyLast [])).outReady = true ∧
      (busyLast []).bits.toNat ≤ (busyLast []).p.toNat + 5) ∧
    (busy2 []).p.toNat + 5 < (busy2 []).bits.toNat :=
  ⟨⟨rfl, rfl, rfl, rfl⟩, ⟨rfl, rfl, by decide⟩, by decide⟩

theorem witness_StalledOutputStable :
    (busy2 [stallInputs]).phase = .busy ∧ (currentInputs (busy2 [stallInputs])).rst = false ∧
    (currentInputs (busy2 [stallInputs])).outReady = false ∧ ∃ t, step (busy2 [stallInputs]) = .next t :=
  ⟨rfl, rfl, rfl, _, rfl⟩

/-- A group in one byte, and one that crosses into the last. -/
theorem witness_GroupIsStreamBits :
    ((busy2 []).Inv ∧ (busy2 []).phase = .busy ∧ currentGroup (busy2 []) = .ok 31) ∧
    ((busyLast []).Inv ∧ (busyLast []).phase = .busy ∧ currentGroup (busyLast []) = .ok 31) :=
  ⟨⟨busy2_inv _, rfl, rfl⟩, ⟨busyLast_inv _, rfl, rfl⟩⟩

theorem witness_OutDataCodes :
    ((outputs (busy2 [])).outData = some 0x39 ∧ (outputs (busy2 [])).outValid = true) ∧
    ((outputs (idle2 [])).outData = some 0 ∧ (outputs (idle2 [])).outValid = false) := ⟨⟨rfl, rfl⟩, rfl, rfl⟩

theorem witness_OutputsByPhase :
    (idle2 []).phase = .idle ∧ (busy2 []).phase = .busy ∧ currentGroup (busy2 []) = .ok 31 ∧ (faulted []).phase = .fault :=
  ⟨rfl, rfl, rfl, rfl⟩

theorem witness_ReadsInRange :
    (busyLast []).Inv ∧ (busyLast []).phase = .busy ∧ readSet (busyLast []) = [0, 1] := ⟨busyLast_inv _, rfl, by decide⟩

/-- A different memory that agrees on the read set. -/
theorem witness_CharDependsOnReadSet :
    ∀ i ∈ readSet (busy2 []), Memory.read [(0, (0xFF : Byte)), (1, 0x00)] i = Memory.read (busy2 []).buf i := by decide

/-- An encode at a group whose second byte is unwritten. -/
def busyUnwritten (cs : List Inputs) : State := { busyLast cs with buf := [(0, 0xFF)] }

theorem busyUnwritten_inv (cs : List Inputs) : (busyUnwritten cs).Inv :=
  Laws.inv_withCycles (s := busyUnwritten []) (by constructor <;> decide) cs

theorem witness_UninitReadExactly :
    ((busyLast []).Inv ∧ (busyLast []).phase = .busy ∧ (currentInputs (busyLast [])).rst = false ∧
      ∀ i ∈ readSet (busyLast []), written (busyLast []) i = true) ∧
    ((busyUnwritten []).Inv ∧ (busyUnwritten []).phase = .busy ∧
      (readSet (busyUnwritten [])).find? (fun k => !written (busyUnwritten []) k) = some 1) :=
  ⟨⟨busyLast_inv _, rfl, rfl, by decide⟩, busyUnwritten_inv _, rfl, by decide⟩

theorem witness_OnlyUninitReadStops :
    (busyUnwritten []).Inv ∧ step (busyUnwritten []) = .fault (.uninitRead 1) ∧ (busyUnwritten []).phase = .busy :=
  ⟨busyUnwritten_inv _, rfl, rfl⟩

theorem witness_StepKeepsInvariant :
    (busyLast []).Inv ∧ ∃ t, step (busyLast []) = .next t := ⟨busyLast_inv _, _, rfl⟩

theorem witness_StepKeepsAlphabet :
    (busyLast []).AlphabetClosed ∧ ∃ t, step (busyLast []) = .next t :=
  ⟨by intro c hc; revert c; decide, _, rfl⟩

theorem witness_StepKeepsEncodeText :
    ((busyLast []).Inv ∧ (busyLast []).LogIsText ∧ ∃ t, step (busyLast []) = .next t ∧ t.phase = .idle) ∧
    ((busyLast [stallInputs]).Inv ∧ (busyLast [stallInputs]).LogIsText ∧
      ∃ t, step (busyLast [stallInputs]) = .next t ∧ t.phase = .busy) :=
  ⟨⟨busyLast_inv _, busyLast_log _, _, rfl, rfl⟩, busyLast_inv _, busyLast_log _, _, rfl, rfl⟩

/-- One stall, then the last transfer; and a buffer that agrees below `LEN`. -/
theorem witness_EncodeIgnoresStalls :
    ((busyLast [stallInputs]).Inv ∧ (busyLast [stallInputs]).LogIsText ∧
      (∀ j, j < 2 → (inputsAt (busyLast [stallInputs]) j).rst = false ∧
        ∃ u, runSteps j (busyLast [stallInputs]) = .next u ∧ u.phase = .busy) ∧
      ∃ t, runSteps 2 (busyLast [stallInputs]) = .next t ∧ t.phase = .idle) ∧
    ∀ i, i < (idle2 []).len.toNat →
      Memory.read [(0, (0xFF : Byte)), (1, 0xFF), (2, 0x00)] i = Memory.read (idle2 []).buf i := by
  refine ⟨⟨busyLast_inv _, busyLast_log _, fun j hj => ?_, _, rfl, rfl⟩, by decide⟩
  obtain rfl | rfl : j = 0 ∨ j = 1 := by omega
  · exact ⟨rfl, _, rfl, rfl⟩
  · exact ⟨rfl, _, rfl, rfl⟩

theorem idle2_written (cs : List Inputs) : bufferWritten (idle2 cs) := by
  show ∀ i, i < 2 → written (idle2 []) i = true
  decide

theorem witness_EncodeRunsToItsText :
    (idle2 [offerInputs 0x20000007]).Inv ∧ accepts (idle2 [offerInputs 0x20000007]) (.enc 7) ∧
    (7#28).toNat ≤ 8 * (idle2 []).len.toNat ∧ bufferWritten (edgeStart (idle2 [offerInputs 0x20000007])) ∧
    ∀ k, 1 ≤ k → k ≤ groupCount 7 →
      (inputsAt (idle2 [offerInputs 0x20000007]) k).rst = false ∧
      (inputsAt (idle2 [offerInputs 0x20000007]) k).outReady = true := by
  refine ⟨idle2_inv _, ⟨by decide, by decide⟩, by decide, idle2_written [], fun k h1 h2 => ?_⟩
  obtain rfl | rfl : k = 1 ∨ k = 2 := by
    have : groupCount 7 = 2 := by decide
    omega
  · exact ⟨rfl, rfl⟩
  · exact ⟨rfl, rfl⟩

theorem witness_ShorterEncodeIsPrefix :
    (idle2 []).Inv ∧ (idle2 []).phase = .idle ∧ bufferWritten (idle2 []) ∧ (7#28).toNat < (16#28).toNat ∧
    (16#28).toNat ≤ 8 * (idle2 []).len.toNat := ⟨idle2_inv _, rfl, idle2_written _, by decide, by decide⟩

theorem witness_ResetMidEncode :
    (busyLast [resetInputs]).Inv ∧ (busyLast [resetInputs]).phase = .busy ∧ (busyLast [resetInputs]).LogIsText ∧
    (currentInputs (busyLast [resetInputs])).rst = true := ⟨busyLast_inv _, rfl, busyLast_log _, rfl⟩

/-- The buffers and schedules of the two examples. -/
def tail2 : State := idle2 [offerInputs 0x20000007, Inputs.inactive, Inputs.inactive]

def tail1 : State := { idle2 [offerInputs 0x20000008, Inputs.inactive, Inputs.inactive] with len := 1 }

theorem witness_TailExamples :
    (tail2.phase = .idle ∧ tail2.len = 2 ∧ 2 ≤ tail2.cfg.maxLen ∧ Memory.read tail2.buf 0 = some 0xFF ∧
      Memory.read tail2.buf 1 = some 0xFF ∧ tail2.cycles = [offerInputs 0x20000007, Inputs.inactive, Inputs.inactive]) ∧
    (tail1.phase = .idle ∧ tail1.len = 1 ∧ Memory.read tail1.buf 0 = some 0xFF ∧
      tail1.cycles = [offerInputs 0x20000008, Inputs.inactive, Inputs.inactive]) := by decide

theorem witness_ScriptActions : (busy2 []).phase = .busy ∧ (idle2 []).phase ≠ .busy := by decide

theorem witness_ScriptPseudoActions : ([0x54, 0x68, 0x65] : List Byte).length < 2 ^ 28 := by decide

end Sys2Proof.Tests
end

section
/-! The statements on the state of the block (spec/10_state.md): the effect of one edge without reset, as a case for each thing
an edge can do, and what follows for the phase, the registers and `DONE`. -/

namespace Sys2Proof.Proofs

open Sys2Proof.Machine Sys2Proof.Laws

/-! ### Accepted commands and transfers -/

/-- One word is accepted at an edge, so that it is one command. -/
theorem accepts_unique {s : State} {i j : Instr} (hi : accepts s i) (hj : accepts s j) : i = j :=
  hi.2.symm.trans hj.2

theorem phase_of_acceptsCommand {s : State} (h : acceptsCommand s = true) : s.phase = .idle :=
  (acceptsCommand_iff.mp h).2.1

theorem phase_of_accepts {s : State} {i : Instr} (h : accepts s i) : s.phase = .idle :=
  phase_of_acceptsCommand h.1

theorem phase_of_transfers {s : State} (h : transfers s = true) : s.phase = .busy :=
  (transfers_iff.mp h).2.1

theorem acceptsCommand_of_not_idle {s : State} (h : s.phase ≠ .idle) : acceptsCommand s = false :=
  Bool.eq_false_iff.mpr fun ha => h (phase_of_acceptsCommand ha)

/-- No edge both accepts a command and transfers a character (R94, R78). -/
theorem not_accepts_of_busy {s : State} {i : Instr} (h : s.phase = .busy) : ¬ accepts s i := fun hi => by
  simp [phase_of_accepts hi] at h

/-! ### What a command's meaning reads of the state an edge starts from -/

@[simp] theorem bufferBits_edgeStart (s : State) : bufferBits (edgeStart s) = bufferBits s := by
  simp [bufferBits]

@[simp] theorem fullBits_edgeStart (s : State) : fullBits (edgeStart s) = fullBits s := by
  simp [fullBits]

@[simp] theorem faultCause_edgeStart (i : Instr) (s : State) : faultCause i (edgeStart s) = faultCause i s := by
  rw [edgeStart_eq]
  rfl

/-- `ENCF` starts the empty encode exactly on the empty buffer (R88). -/
theorem fullBits_eq_zero_iff {s : State} : fullBits s = 0 ↔ s.len = 0 := by
  rw [← BitVec.toNat_inj, ← BitVec.toNat_inj, fullBits_toNat, bufferBits]
  simp

/-! ### The flags -/

theorem startDone_eq_true_iff {n : Operand} : startDone n = true ↔ n = 0 := decide_eq_true_iff

@[simp] theorem startPhase_zero (old : Phase) : startPhase 0 old = old := rfl

theorem startPhase_of_ne_zero {n : Operand} (h : n ≠ 0) (old : Phase) : startPhase n old = .busy := if_neg h

theorem lastTransfer_iff {s : State} : lastTransfer s = true ↔ s.bits.toNat ≤ s.p.toNat + 5 := decide_eq_true_iff

/-- `DONE` after a transfer: set by the last one, else kept (R23, R78). -/
theorem transferDone_eq_or (s : State) : transferDone s = (lastTransfer s || s.done) := by
  unfold transferDone
  cases lastTransfer s <;> rfl

/-- A transfer that is the last ends in `IDLE` (R78). -/
theorem transferPhase_of_last {s : State} (h : lastTransfer s = true) : transferPhase s = .idle := if_pos h

/-- A transfer that is not the last keeps the phase (R78). -/
theorem transferPhase_of_not_last {s : State} (h : lastTransfer s = false) : transferPhase s = s.phase :=
  if_neg (Bool.eq_false_iff.mp h)

/-! ### The effect of one edge -/

/-- What one edge without reset does to the state `s`, a case for each kind of work with its guard (R99). -/
inductive EdgeEffect (s : State) : State → Prop where
  /-- `SETLEN n` is accepted and fits (R96). -/
  | setlen (n : Operand) (acc : accepts s (.setlen n)) (fits : n.toNat ≤ s.cfg.maxLen) :
      EdgeEffect s (setLength n (edgeStart s))
  /-- `ENC n` is accepted and fits (R76). -/
  | enc (n : Operand) (acc : accepts s (.enc n)) (fits : n.toNat ≤ bufferBits s) :
      EdgeEffect s (beginEncode n (edgeStart s))
  /-- `ENCF` is accepted (R88). -/
  | encf (acc : accepts s .encf) : EdgeEffect s (beginEncode (fullBits s) (edgeStart s))
  /-- A command is accepted that faults (R102, R112). -/
  | fault (i : Instr) (acc : accepts s i) (cause : faultCause i s ≠ .none) :
      EdgeEffect s (raiseFault (faultCause i s) (encode i) (edgeStart s))
  /-- The character at the cursor is transferred (R78). -/
  | transfer (c : Byte) (tr : transfers s = true) (char : currentChar s = .ok c) :
      EdgeEffect s (transfer c (dropCycle s))
  /-- The character at the cursor is offered and not taken (R78). -/
  | stall (c : Byte) (busy : s.phase = .busy) (tr : transfers s = false) (char : currentChar s = .ok c) :
      EdgeEffect s (dropCycle s)
  /-- `IDLE` with no word offered, or `FAULT` (R99, R100). -/
  | hold (notBusy : s.phase ≠ .busy) (acc : acceptsCommand s = false) : EdgeEffect s (edgeStart s)

/-- The effect of an edge that accepts a word: the decoded command's own, or fault entry (R95). -/
theorem edgeEffect_of_exec {s t : State} (ha : acceptsCommand s = true)
    (h : exec (decode (currentInputs s).cmdData) (edgeStart s) = .next t) : EdgeEffect s t := by
  have acc : accepts s (decode (currentInputs s).cmdData) := ⟨ha, rfl⟩
  generalize decode (currentInputs s).cmdData = i at acc h
  rcases exec_cases i (edgeStart s) with ⟨n, rfl, fits, e⟩ | ⟨n, rfl, fits, e⟩ | ⟨rfl, e⟩ | ⟨cause, e⟩ <;>
    obtain rfl := Host.Outcome.next.inj (e.symm.trans h)
  · exact .setlen n acc (by simpa using fits)
  · exact .enc n acc (by simpa using fits)
  · simpa using EdgeEffect.encf acc
  · simpa using EdgeEffect.fault i acc (by simpa using cause)

/-- Every step without reset that answers a next state has one of the effects of an edge. -/
theorem edgeEffect_of_step {s t : State} (h : step s = .next t) (hr : (currentInputs s).rst = false) :
    EdgeEffect s t := by
  rcases step_next h with ⟨hr', -⟩ | ⟨-, idle, valid, he⟩ | ⟨-, busy, c, char, rfl⟩ | ⟨-, quiet, rfl⟩
  · simp [hr] at hr'
  · exact edgeEffect_of_exec (acceptsCommand_iff.mpr ⟨hr, idle, valid⟩) he
  · by_cases ready : (currentInputs s).outReady = true
    · rw [if_pos ready]
      exact .transfer c (transfers_iff.mpr ⟨hr, busy, ready⟩) char
    · rw [if_neg ready]
      exact .stall c busy (Bool.eq_false_iff.mpr fun tr => ready (transfers_iff.mp tr).2.2) char
  · rcases quiet with ⟨idle, noWord⟩ | fault
    · exact .hold (by simp [idle]) (by simp [acceptsCommand, noWord])
    · exact .hold (by simp [fault]) (acceptsCommand_of_not_idle (by simp [fault]))

/-- An edge with reset leads to the reset state of the same block (R122). -/
theorem eq_resetWith_of_step {s t : State} (h : step s = .next t) (hr : (currentInputs s).rst = true) :
    t = State.resetWith s.cfg s.cycles.tail := by
  rcases step_next h with ⟨-, ht⟩ | ⟨hr', -⟩ | ⟨hr', -⟩ | ⟨hr', -⟩
  · exact ht
  all_goals simp [hr] at hr'

/-! ### `DONE` after an edge -/

/-- `DONE` after an accepted command is set exactly by the empty encode (R23, R76, R88). -/
theorem done_after_accept {s t : State} {i : Instr} (h : EdgeEffect s t) (hi : accepts s i) :
    t.done = true ↔ i = .enc 0 ∨ (i = .encf ∧ s.len = 0) := by
  cases h with
  | setlen n acc fits => simp [accepts_unique hi acc]
  | enc n acc fits => simp [accepts_unique hi acc, startDone_eq_true_iff]
  | encf acc =>
    rw [accepts_unique hi acc, beginEncode_done, startDone_eq_true_iff, fullBits_eq_zero_iff]
    simp
  | fault j acc cause =>
    obtain rfl := accepts_unique hi acc
    have notEmptyEnc : i ≠ .enc 0 := by
      rintro rfl
      exact cause rfl
    have notEncf : i ≠ .encf := by
      rintro rfl
      exact cause rfl
    simpa [notEncf] using notEmptyEnc
  | transfer c tr char => exact absurd hi (not_accepts_of_busy (phase_of_transfers tr))
  | stall c busy tr char => exact absurd hi (not_accepts_of_busy busy)
  | hold notBusy acc => simp [hi.1] at acc

/-- `DONE` after a transfer (R23, R78). -/
theorem done_after_transfer {s t : State} (h : EdgeEffect s t) (ht : transfers s = true) :
    t.done = (decide (s.bits.toNat ≤ s.p.toNat + 5) || s.done) := by
  have busy := phase_of_transfers ht
  cases h with
  | setlen _ acc _ | enc _ acc _ | encf acc | fault _ acc _ => exact absurd acc (not_accepts_of_busy busy)
  | transfer c tr char => exact transferDone_eq_or (dropCycle s)
  | stall c busy tr char => simp [ht] at tr
  | hold notBusy acc => exact absurd busy notBusy

/-- An edge that accepts no word and transfers no character keeps `DONE` (R23). -/
theorem done_unchanged {s t : State} (h : EdgeEffect s t) (ha : acceptsCommand s = false)
    (ht : transfers s = false) : t.done = s.done := by
  cases h with
  | setlen _ acc _ | enc _ acc _ | encf acc | fault _ acc _ => exact absurd acc.1 (by simp [ha])
  | transfer c tr char => simp [ht] at tr
  | stall c busy tr char => exact dropCycle_done s
  | hold notBusy acc => exact edgeStart_done s

/-! ### `out_data` by phase -/

/-- Where no character is offered `out_data` is 0x00 (R62, R77). -/
theorem outData_of_not_busy {s : State} (h : s.phase ≠ .busy) : outData s = some 0 :=
  if_neg (by simpa [outValid] using h)

/-- In `BUSY` `out_data` is the code of the group at the cursor (R62, R77). -/
theorem outData_of_busy {s : State} {v : Group} (h : s.phase = .busy) (hv : currentGroup s = .ok v) :
    outData s = some (lut v) := by
  have char : currentChar s = .ok (lut v) := currentChar_ok.mpr ⟨v, hv, rfl⟩
  rw [outData, if_pos (by simp [outValid, h]), char]
  rfl

/-! ### The obligations -/

/-- Settles O16: each effect of an edge makes one transition, and its guard is the cause. -/
theorem phaseTransitions : Obligations.PhaseTransitions := by
  refine ⟨rfl, rfl, rfl, rfl, fun s t h => ⟨fun hr => by rw [eq_resetWith_of_step h hr, resetWith_phase], fun hr => ?_⟩⟩
  cases edgeEffect_of_step h hr with
  | setlen n acc fits =>
    simp only [setLength_phase, edgeStart_phase, phase_of_accepts acc]
    exact .inr (.inl ⟨n, acc⟩)
  | enc n acc fits =>
    simp only [beginEncode_phase, edgeStart_phase, phase_of_accepts acc]
    by_cases hn : n = 0
    · subst hn
      exact .inr (.inr (.inl acc))
    · rw [startPhase_of_ne_zero hn]
      exact .inl ⟨n, hn, acc⟩
  | encf acc =>
    simp only [beginEncode_phase, edgeStart_phase, phase_of_accepts acc]
    by_cases hn : fullBits s = 0
    · rw [hn, startPhase_zero]
      exact .inr (.inr (.inr ⟨acc, fullBits_eq_zero_iff.mp hn⟩))
    · rw [startPhase_of_ne_zero hn]
      exact .inr ⟨acc, fun hl => hn (fullBits_eq_zero_iff.mpr hl)⟩
  | fault i acc cause =>
    simp only [raiseFault_phase, phase_of_accepts acc]
    exact ⟨i, acc, cause⟩
  | transfer c tr char =>
    rw [transfer_phase, phase_of_transfers tr]
    cases last : lastTransfer (dropCycle s) with
    | true =>
      rw [transferPhase_of_last last]
      exact ⟨tr, lastTransfer_iff.mp last⟩
    | false =>
      rw [transferPhase_of_not_last last, dropCycle_phase, phase_of_transfers tr]
      exact fun _ => Nat.lt_of_not_le (of_decide_eq_false last)
  | stall c busy tr char =>
    simp [busy, tr]
  | hold notBusy acc =>
    rw [edgeStart_phase]
    cases hp : s.phase with
    | idle => exact .inl acc
    | busy => exact absurd hp notBusy
    | fault => trivial

/-- Settles O17: each effect of an edge changes only registers whose writer its guard names. -/
theorem registerWriters : Obligations.RegisterWriters := by
  intro s t h hr
  cases edgeEffect_of_step h hr with
  | setlen n acc fits =>
    have writes : ∃ n, accepts s (.setlen n) := ⟨n, acc⟩
    simp [acc.1, writes]
  | enc n acc fits =>
    have writes : ∃ n, accepts s (.enc n) := ⟨n, acc⟩
    simp [acc.1, writes]
  | encf acc => simp [acc.1, acc]
  | fault i acc cause =>
    have writes : ∃ i, accepts s i ∧ faultCause i s ≠ .none := ⟨i, acc, cause⟩
    simp [acc.1, writes]
  | transfer c tr char =>
    cases last : lastTransfer (dropCycle s) with
    | true =>
      have ends : s.bits.toNat ≤ s.p.toNat + 5 := lastTransfer_iff.mp last
      simp [tr, ends]
    | false => simp [tr, transferPhase_of_not_last last, transferDone_eq_or, last]
  | stall c busy tr char => simp
  | hold notBusy acc => simp

/-- Settles O29: the four kinds of edge that the statement tells apart, each by its lemma. -/
theorem doneAfterStep : Obligations.DoneAfterStep := by
  refine ⟨rfl, fun s t h => ⟨fun hr => ?_, fun i hi => ?_, fun ht => ?_, fun hr ha ht => ?_⟩⟩
  · rw [eq_resetWith_of_step h hr, resetWith_done]
  · exact done_after_accept (edgeEffect_of_step h (acceptsCommand_iff.mp hi.1).1) hi
  · exact done_after_transfer (edgeEffect_of_step h (transfers_iff.mp ht).1) ht
  · exact done_unchanged (edgeEffect_of_step h hr) ha ht

/-- Settles O7: the reset state is a literal of the model, read off field by field. -/
theorem resetValues : Obligations.ResetValues := by
  refine ⟨⟨Config.block64, [], rfl⟩, fun c cs => ?_, rfl⟩
  have unwritten : ∀ k, Memory.read (State.resetWith c cs).buf k = none := fun k => by
    rw [resetWith_buf, read_nil]
  exact ⟨resetWith_phase c cs, resetWith_len c cs, resetWith_bits c cs, resetWith_p c cs, resetWith_outcnt c cs,
    resetWith_done c cs, resetWith_errcode c cs, resetWith_errcmd c cs, unwritten, resetWith_outlog c cs⟩

/-- Settles O34: `LUT` indexes the ROM, and the ROM's 32 entries are checked one by one. -/
theorem alphabetCodes : Obligations.AlphabetCodes := by
  have isAlphabet : lutRom = ['y', 'b', 'n', 'd', 'r', 'f', 'g', '8', 'e', 'j', 'k', 'm', 'c', 'p', 'q', 'x',
      'o', 't', '1', 'u', 'w', 'i', 's', 'z', 'a', '3', '4', '5', 'h', '7', '6', '9'].map
      (fun c => BitVec.ofNat 8 c.toNat) := by decide
  have distinct : lutRom.Nodup := by decide
  have printable : ∀ c ∈ lutRom, 0x30 ≤ c.toNat ∧ c.toNat ≤ 0x7A ∧ c.getLsbD 7 = false := by decide
  exact ⟨fun v => List.getElem?_eq_getElem v.isLt, isAlphabet, distinct, printable⟩

/-- Settles O36: the status outputs are the registers by definition; the port outputs go by the phase. -/
theorem outputsByPhase : Obligations.OutputsByPhase := by
  intro s
  refine ⟨decide_eq_true_iff, decide_eq_true_iff, rfl, rfl, rfl, rfl, rfl, rfl, rfl, fun idle => ?_,
    fun busy => ?_, fun fault => ?_⟩
  · exact ⟨by simp [outputs, cmdReady, idle], by simp [outputs, outValid, idle], outData_of_not_busy (by simp [idle])⟩
  · exact ⟨by simp [outputs, cmdReady, busy], by simp [outputs, outValid, busy], fun v hv => outData_of_busy busy hv⟩
  · exact ⟨by simp [outputs, cmdReady, fault], by simp [outputs, outValid, fault], outData_of_not_busy (by simp [fault])⟩

end Sys2Proof.Proofs
end

section
/-! The statements on the write port and `BUF` (spec/20_memory.md R39, R40): no work of an edge touches `BUF` but a reset, so that
what the write port leaves is what the next state holds. -/

namespace Sys2Proof.Proofs

open Sys2Proof.Machine Sys2Proof.Laws

/-- An edge without reset leaves `BUF` as the write port leaves it: no command and no output step writes it (R38, R99). -/
theorem buf_of_edgeEffect {s t : State} (h : EdgeEffect s t) : t.buf = (edgeStart s).buf := by
  cases h with
  | setlen n acc fits => exact setLength_buf n (edgeStart s)
  | enc n acc fits => exact beginEncode_buf n (edgeStart s)
  | encf acc => exact beginEncode_buf (fullBits s) (edgeStart s)
  | fault i acc cause => exact raiseFault_buf (faultCause i s) (encode i) (edgeStart s)
  | transfer c tr char =>
    rw [transfer_buf, edgeStart_of_not_idle (by simp [phase_of_transfers tr])]
  | stall c busy tr char => rw [edgeStart_of_not_idle (by simp [busy])]
  | hold notBusy acc => rfl

/-- A write that is not effective leaves an edge's work nothing but the inputs used up (R40). -/
theorem edgeStart_of_not_writeEffective {s : State} (h : writeEffective s (currentInputs s) = false) :
    edgeStart s = dropCycle s :=
  if_neg (Bool.eq_false_iff.mp h)

/-- A step is a function of its work, of the state with the inputs used up, of the state the work starts from, and of
`out_ready` (R99). -/
theorem step_congr {s t : State} (work : edgeWork t = edgeWork s) (drop : dropCycle t = dropCycle s)
    (start : edgeStart t = edgeStart s) (ready : (currentInputs t).outReady = (currentInputs s).outReady) :
    step t = step s := by
  unfold step
  rw [work, drop, start]
  cases edgeWork s with
  | output => exact outputStep_congr ready (edgeStart s)
  | reset | accept w | hold => rfl

/-- Settles O13: a reset empties `BUF`; after any other edge `BUF` is what the write port made of it. -/
theorem effectiveWrites : Obligations.EffectiveWrites := by
  intro s t h a
  by_cases hr : (currentInputs s).rst = true
  · rw [if_pos hr, eq_resetWith_of_step h hr, resetWith_buf, read_nil]
  · rw [if_neg hr]
    have noReset : (currentInputs s).rst = false := Bool.eq_false_iff.mpr hr
    rw [buf_of_edgeEffect (edgeEffect_of_step h noReset), read_edgeStart]
    simp only [writeEffective_iff, noReset, true_and, and_assoc]

/-- Settles O14: with and without the dropped write the edge's work starts from the same state, and the work is the same. -/
theorem ineffectiveWritesDoNothing : Obligations.IneffectiveWritesDoNothing := by
  intro s h
  have start : edgeStart s = dropCycle s :=
    edgeStart_of_not_writeEffective (Bool.eq_false_iff.mpr fun he => h (writeEffective_iff.mp he))
  refine ⟨step_congr rfl (dropCycle_withInputs s _) ?_ rfl, by rw [start, dropCycle_buf]⟩
  rw [start, edgeStart_of_not_writeEffective (by simp [writeEffective]), dropCycle_withInputs]

end Sys2Proof.Proofs
end

section
/-! The statements on the encoding (spec/30_encoding.md R58, R62, R63): the decoder as a function of the two fields read as
numbers, the command port at an edge that accepts nothing, the assembler's words, the codes on `out_data`. -/

namespace Sys2Proof.Proofs

open Sys2Proof.Machine Sys2Proof.Laws

/-! ### The fields of a word as numbers -/

/-- The operand is the word's number cut to 28 bits (R55, R56). -/
theorem operandField_eq_ofNat (w : Word) : operandField w = BitVec.ofNat 28 w.toNat := by
  rw [← BitVec.toNat_inj, operandField_toNat, BitVec.toNat_ofNat]

theorem opcField_eq_iff {w : Word} {o : BitVec 4} : opcField w = o ↔ w.toNat / 2 ^ 28 = o.toNat := by
  rw [← BitVec.toNat_inj, opcField_toNat]

theorem operandField_eq_zero_iff {w : Word} : operandField w = 0 ↔ w.toNat % 2 ^ 28 = 0 := by
  rw [← BitVec.toNat_inj, operandField_toNat]
  rfl

/-! ### The decoder by its fields -/

theorem decode_of_opc_one {w : Word} (h : opcField w = 0x1) : decode w = .setlen (operandField w) := by
  rw [decode, h]
  rfl

theorem decode_of_opc_two {w : Word} (h : opcField w = 0x2) : decode w = .enc (operandField w) := by
  rw [decode, h]
  rfl

theorem decode_of_opc_three {w : Word} (h : opcField w = 0x3) : decode w = decodeOpc3 (operandField w) := by
  rw [decode, h]
  rfl

/-- An opcode other than those of `SETLEN`, `ENC` and `ENCF` is reserved, whatever the operand (R57, R104). -/
theorem isIllegal_decodeFields_of_reserved {o : BitVec 4} (one : o ≠ 0x1) (two : o ≠ 0x2) (three : o ≠ 0x3)
    (n : Operand) : (decodeFields o n).isIllegal = true := by
  rcases opc_cases o with rfl | rfl | rfl | rfl | rfl | rfl | rfl | rfl | rfl | rfl | rfl | rfl | rfl | rfl | rfl | rfl
  case inr.inl => exact absurd rfl one
  case inr.inr.inl => exact absurd rfl two
  case inr.inr.inr.inl => exact absurd rfl three
  all_goals rfl

/-- The words that are no command, by their fields (R58). -/
theorem isIllegal_decode_iff (w : Word) :
    (decode w).isIllegal = true ↔
      opcField w ≠ 0x1 ∧ opcField w ≠ 0x2 ∧ ¬ (opcField w = 0x3 ∧ operandField w = 0) := by
  by_cases one : opcField w = 0x1
  · rw [decode_of_opc_one one]
    exact iff_of_false Bool.false_ne_true fun ⟨notOne, _, _⟩ => notOne one
  by_cases two : opcField w = 0x2
  · rw [decode_of_opc_two two]
    exact iff_of_false Bool.false_ne_true fun ⟨_, notTwo, _⟩ => notTwo two
  by_cases three : opcField w = 0x3
  · rw [decode_of_opc_three three]
    rcases decodeOpc3_cases (operandField w) with ⟨zero, e⟩ | ⟨nonzero, e⟩
    · rw [e]
      exact iff_of_false Bool.false_ne_true fun ⟨_, _, notEncf⟩ => notEncf ⟨three, zero⟩
    · rw [e]
      exact iff_of_true rfl ⟨one, two, fun ⟨_, zero⟩ => nonzero zero⟩
  · exact iff_of_true (isIllegal_decodeFields_of_reserved one two three _) ⟨one, two, fun ⟨h, _⟩ => three h⟩

/-! ### The command port where no word is accepted -/

/-- The work of an edge that accepts no word does not depend on the word the port carries (R94). -/
theorem edgeWork_of_not_accept {s : State} (h : acceptsCommand s = false) (w : Word) :
    edgeWork (withInputs s { currentInputs s with cmdData := w }) = edgeWork s := by
  rw [edgeWork_withInputs, edgeWork]
  cases hr : (currentInputs s).rst with
  | true => rfl
  | false =>
    cases hp : s.phase with
    | idle =>
      have noWord : (currentInputs s).cmdValid = false :=
        Bool.eq_false_iff.mpr fun valid => Bool.eq_false_iff.mp h (acceptsCommand_iff.mpr ⟨hr, hp, valid⟩)
      simp [noWord]
    | busy | fault => rfl

/-- A word that is not accepted has no effect on the step (R58, R94). -/
theorem step_of_not_accept {s : State} (h : acceptsCommand s = false) (w : Word) :
    step (withInputs s { currentInputs s with cmdData := w }) = step s :=
  step_congr (edgeWork_of_not_accept h w) (dropCycle_withInputs s _) (edgeStart_withInputs rfl rfl rfl rfl) rfl

/-! ### The assembler -/

theorem asmOperand_of_lt {n : Nat} (h : n < 2 ^ 28) : asmOperand n = some (BitVec.ofNat 28 n) := if_pos h

theorem asmOperand_of_le {n : Nat} (h : 2 ^ 28 ≤ n) : asmOperand n = none := if_neg (Nat.not_lt.mpr h)

/-- An operand that fits is the same number in the width of a word. -/
theorem setWidth_ofNat_of_lt {n : Nat} (h : n < 2 ^ 28) : (BitVec.ofNat 28 n).setWidth 32 = BitVec.ofNat 32 n := by
  rw [← BitVec.toNat_inj, BitVec.toNat_setWidth, BitVec.toNat_ofNat, BitVec.toNat_ofNat, Nat.mod_eq_of_lt h]

/-! ### `out_data` -/

/-- A code on `out_data` in `BUSY` is that of the group at the cursor (R62, R77). -/
theorem currentGroup_of_outData {s : State} {c : Byte} (busy : s.phase = .busy) (h : outData s = some c) :
    ∃ v, currentGroup s = .ok v ∧ c = lut v := by
  rw [outData, if_pos (by simp [outValid, busy])] at h
  cases char : currentChar s with
  | error f => simp [char, Except.toOption] at h
  | ok d =>
    obtain rfl : d = c := by simpa [char, Except.toOption] using h
    exact currentChar_ok.mp char

/-- No code of the alphabet uses bit 7 (R29, R62). -/
theorem bit7_lut (v : Group) : (lut v).getLsbD 7 = false := by
  obtain ⟨-, -, -, range⟩ := alphabetCodes
  exact (range _ (lut_mem v)).2.2

/-! ### The obligations -/

/-- Settles O3: the decoder by its fields, each field read as a number; and the step without an accept. -/
theorem decoderByFields : Obligations.DecoderByFields := by
  refine ⟨fun w => ⟨fun one => ?_, fun two => ?_, fun ⟨three, zero⟩ => ?_, ?_⟩, fun s w h => step_of_not_accept h w⟩
  · rw [decode_of_opc_one (opcField_eq_iff.mpr one), operandField_eq_ofNat]
  · rw [decode_of_opc_two (opcField_eq_iff.mpr two), operandField_eq_ofNat]
  · rw [decode_of_opc_three (opcField_eq_iff.mpr three), operandField_eq_zero_iff.mpr zero]
    rfl
  · rw [isIllegal_decode_iff, ne_eq, ne_eq, opcField_eq_iff, opcField_eq_iff, opcField_eq_iff, operandField_eq_zero_iff]
    rfl

/-- Settles O5: an operand below 2^28 is put below its opcode unchanged, and a larger one has no word. -/
theorem assembledWords : Obligations.AssembledWords := by
  refine ⟨fun n h => ⟨?_, ?_⟩, fun n h => ⟨?_, ?_⟩, by decide, fun w => rfl⟩
  · rw [assemble, asmOperand_of_lt h, Option.map_some, encode_setlen, setWidth_ofNat_of_lt h]
  · rw [assemble, asmOperand_of_lt h, Option.map_some, encode_enc, setWidth_ofNat_of_lt h]
  · rw [assemble, asmOperand_of_le h, Option.map_none]
  · rw [assemble, asmOperand_of_le h, Option.map_none]

/-- Settles O35: `out_data` by phase, with the alphabet's own facts for the code offered in `BUSY`. -/
theorem outDataCodes : Obligations.OutDataCodes := by
  intro s c h
  refine ⟨fun valid => ?_, fun invalid => ?_⟩
  · obtain ⟨v, group, rfl⟩ := currentGroup_of_outData (of_decide_eq_true valid) h
    exact ⟨⟨v, group, rfl⟩, lut_mem v, bit7_lut v⟩
  · exact Option.some.inj (h.symm.trans (outData_of_not_busy (of_decide_eq_false invalid)))

end Sys2Proof.Proofs
end

section
/-! The statements on the bit-group encoder (spec/40_bit_group_encoder.md): the group at the cursor as stream bits, the bytes read
for it, and whole encodes as runs of edges that keep the log the text of the buffer. -/

namespace Sys2Proof.Proofs

open Sys2Proof.Machine Sys2Proof.Laws

/-! ### The group at the cursor and the bit stream -/

/-- The group as a slice of its two bytes, the first byte high (R71). -/
theorem groupExtract_eq_slice (b0 b1 : Byte) (hasNext : Bool) (j : BitOffset) :
    groupExtract b0 b1 hasNext j = (b0 ++ if hasNext then b1 else (0 : Byte)).extractLsb' (11 - j.toNat) 5 := by
  generalize hb : (if hasNext then b1 else (0 : Byte)) = b
  have low : (if hasNext then b1.toNat / 2 ^ (11 - j.toNat) else 0) = b.toNat / 2 ^ (11 - j.toNat) := by
    subst hb
    cases hasNext <;> simp
  have h0 := b0.isLt
  have h1 := b.isLt
  rw [← BitVec.toNat_inj, groupExtract_toNat, low, BitVec.extractLsb'_toNat, BitVec.toNat_append,
    ← Nat.shiftLeft_add_eq_or_of_lt h1, Nat.shiftLeft_eq, Nat.shiftRight_eq_div_pow]
  rcases bitOffset_cases j with rfl | rfl | rfl | rfl | rfl | rfl | rfl | rfl <;> simp <;> omega

/-- A group value as the sum of its bits. -/
theorem group_toNat_eq_bits : ∀ v : Group, v.toNat =
    16 * (v.getLsbD 4).toNat + 8 * (v.getLsbD 3).toNat + 4 * (v.getLsbD 2).toNat + 2 * (v.getLsbD 1).toNat
      + (v.getLsbD 0).toNat := by decide

/-- A stream bit inside the buffer is a bit of its byte, the most significant first (R41). -/
theorem streamBit_of_read {s : State} {i m : Nat} {b : Byte} (inside : i < s.len.toNat) (hm : m < 8)
    (byte : Memory.read s.buf i = some b) : streamBit s (8 * i + m) = b.getLsbD (7 - m) := by
  have index : (8 * i + m) / 8 = i := by omega
  have bit : (8 * i + m) % 8 = m := by omega
  rw [streamBit, if_pos (by unfold bufferBits; omega), index, bit, byte, Option.getD_some]

/-- Past the buffer's end the stream is zeros (R41). -/
theorem streamBit_of_end {s : State} {q : Nat} (past : bufferBits s ≤ q) : streamBit s q = false :=
  if_neg (Nat.not_lt.mpr past)

theorem hasNext_iff {s : State} : hasNext s = true ↔ byteIndex s + 1 < s.len.toNat := decide_eq_true_iff

/-- A group that crosses reads its second byte where the buffer has one (R71, R77). -/
theorem read_second_of_crosses {s : State} {b1 : Byte} (second : secondByte s = .ok b1)
    (cross : 4 ≤ (bitOffset s).toNat) (next : hasNext s = true) :
    Memory.read s.buf (byteIndex s + 1) = some b1 := by
  rw [secondByte, if_pos (by simp [crosses, cross, next])] at second
  exact (bufRead_ok.mp second).2

/-- Bit `4 - k` of the group at the cursor is the stream bit at `P + k` (R73). -/
theorem streamBit_eq_group_bit {s : State} {v : Group} (inside : byteIndex s < s.len.toNat)
    (group : currentGroup s = .ok v) {k : Nat} (hk : k < 5) :
    streamBit s (s.p.toNat + k) = v.getLsbD (4 - k) := by
  obtain ⟨b0, b1, first, second, rfl⟩ := currentGroup_ok.mp group
  have offset := bitOffset_toNat s
  have cursor : s.p.toNat = 8 * byteIndex s + (bitOffset s).toNat := by unfold byteIndex; omega
  rw [groupExtract_eq_slice, BitVec.getLsbD_extractLsb', BitVec.getLsbD_append]
  by_cases here : (bitOffset s).toNat + k < 8
  · rw [cursor, Nat.add_assoc, streamBit_of_read inside here (bufRead_ok.mp first).2]
    simp [show 4 - k < 5 by omega, show ¬ 11 - (bitOffset s).toNat + (4 - k) < 8 by omega,
      show 11 - (bitOffset s).toNat + (4 - k) - 8 = 7 - ((bitOffset s).toNat + k) by omega]
  · have position : s.p.toNat + k = 8 * (byteIndex s + 1) + ((bitOffset s).toNat + k - 8) := by omega
    simp only [show 4 - k < 5 by omega, show 11 - (bitOffset s).toNat + (4 - k) < 8 by omega, decide_true, Bool.true_and,
      if_true]
    by_cases next : hasNext s = true
    · rw [position, streamBit_of_read (hasNext_iff.mp next) (by omega)
        (read_second_of_crosses second (by omega) next), if_pos next]
      congr 1
      omega
    · have past : bufferBits s ≤ s.p.toNat + k := by
        have := mt hasNext_iff.mpr next
        unfold bufferBits
        omega
      rw [streamBit_of_end past, if_neg next]
      simp

/-- The group at the cursor is the sum of the five stream bits from `P` on (R42, R73). -/
theorem currentGroup_toNat {s : State} {v : Group} (inside : byteIndex s < s.len.toNat)
    (group : currentGroup s = .ok v) : v.toNat = streamGroup s s.p.toNat := by
  have bit {k : Nat} (hk : k < 5) := streamBit_eq_group_bit inside group hk
  rw [group_toNat_eq_bits, streamGroup, bit (k := 1) (by decide), bit (k := 2) (by decide), bit (k := 3) (by decide),
    bit (k := 4) (by decide), ← bit (k := 0) (by decide), Nat.add_zero]

/-! ### The bytes an output step reads -/

/-- In `BUSY` the cursor's byte lies in the buffer (R84). -/
theorem byteIndex_lt_len {s : State} (inv : s.Inv) (busy : s.phase = .busy) : byteIndex s < s.len.toNat := by
  have below := inv.cursorBelow busy
  have inBuffer := inv.bitsInBuffer busy
  unfold bufferBits at inBuffer
  unfold byteIndex
  omega

/-- Every byte read in `BUSY` lies in the buffer (R84, R85). -/
theorem lt_len_of_mem_readSet {s : State} (inv : s.Inv) (busy : s.phase = .busy) {i : Nat} (read : i ∈ readSet s) :
    i < s.len.toNat := by
  unfold readSet at read
  split at read
  next both =>
    rcases List.mem_pair.mp read with rfl | rfl
    · exact byteIndex_lt_len inv busy
    · exact hasNext_iff.mp (Bool.and_eq_true_iff.mp both).2
  next => exact List.mem_singleton.mp read ▸ byteIndex_lt_len inv busy

/-- A written byte of the buffer is read without a stop (R36, R84). -/
theorem exists_bufRead_of_written {s : State} {i : Nat} (inv : s.Inv) (inside : i < s.len.toNat)
    (isWritten : written s i = true) : ∃ b, bufRead s i = .ok b := by
  obtain ⟨b, byte⟩ := Option.isSome_iff_exists.mp isWritten
  exact ⟨b, bufRead_ok.mpr ⟨inside.trans_le inv.lenLegal, byte⟩⟩

/-- In `BUSY`, where the bytes of the read set are written, the cursor has a character (R77, R85). -/
theorem exists_currentChar_of_written {s : State} (inv : s.Inv) (busy : s.phase = .busy)
    (allWritten : ∀ i ∈ readSet s, written s i = true) : ∃ c, currentChar s = .ok c := by
  have read {i : Nat} (mem : i ∈ readSet s) : ∃ b, bufRead s i = .ok b :=
    exists_bufRead_of_written inv (lt_len_of_mem_readSet inv busy mem) (allWritten i mem)
  obtain ⟨b0, first⟩ := read (i := byteIndex s) (by unfold readSet; split <;> simp)
  have second : ∃ b1, secondByte s = .ok b1 := by
    unfold secondByte
    split
    next both => exact read (by simp [readSet, both])
    next => exact ⟨0, rfl⟩
  obtain ⟨b1, second⟩ := second
  exact ⟨_, currentChar_ok.mpr ⟨_, currentGroup_ok.mpr ⟨b0, b1, first, second, rfl⟩, rfl⟩⟩

/-! ### The invariant along an encode -/

/-- In `BUSY` neither sum of a transfer wraps (R6, R78). -/
theorem transfer_toNat {s : State} (inv : s.Inv) (busy : s.phase = .busy) (c : Byte) :
    (transfer c s).p.toNat = s.p.toNat + 5 ∧ (transfer c s).outcnt.toNat = s.outcnt.toNat + 1 := by
  have below := inv.cursorBelow busy
  have inBuffer := inv.bitsInBuffer busy
  have small := bufferBits_lt s
  have counts := inv.cursorCounts
  have five : (5 : BitVec 28).toNat = 5 := rfl
  have one : (1 : BitVec 25).toNat = 1 := rfl
  rw [transfer_p, transfer_outcnt, BitVec.toNat_add, BitVec.toNat_add, five, one]
  omega

/-- A transfer in `BUSY` ends the encode or stays in `BUSY` (R78). -/
theorem transferPhase_cases {s : State} (busy : s.phase = .busy) :
    (transferPhase s = .idle ∧ transferDone s = true ∧ s.bits.toNat ≤ s.p.toNat + 5) ∨
      (transferPhase s = .busy ∧ transferDone s = s.done ∧ s.p.toNat + 5 < s.bits.toNat) := by
  cases last : lastTransfer s with
  | true => exact .inl ⟨transferPhase_of_last last, by simp [transferDone_eq_or, last], lastTransfer_iff.mp last⟩
  | false =>
    exact .inr ⟨(transferPhase_of_not_last last).trans busy, by simp [transferDone_eq_or, last],
      Nat.lt_of_not_le (of_decide_eq_false last)⟩

theorem done_of_busy {s : State} (inv : s.Inv) (busy : s.phase = .busy) : s.done = false :=
  Bool.eq_false_iff.mpr fun done => by simp [inv.doneIdle done] at busy

theorem errcode_of_not_fault {s : State} (inv : s.Inv) (noFault : s.phase ≠ .fault) : s.errcode = .none :=
  not_not.mp fun error => noFault (inv.errcodeFault.mp error)

/-- A transfer keeps the invariant (R78). -/
theorem inv_transfer {s : State} (inv : s.Inv) (busy : s.phase = .busy) (c : Byte) : (transfer c s).Inv := by
  obtain ⟨p, outcnt⟩ := transfer_toNat inv busy c
  have counts := inv.cursorCounts
  have below := inv.cursorBelow busy
  have noFault : s.phase ≠ .fault := by simp [busy]
  have noError := errcode_of_not_fault inv noFault
  have notDone := done_of_busy inv busy
  have log : (transfer c s).outlog.length = (transfer c s).outcnt.toNat := by
    rw [outcnt, transfer_outlog, List.length_append, inv.logCounts, List.length_singleton]
  rcases transferPhase_cases busy with ⟨phase, done, last⟩ | ⟨phase, done, more⟩
  · exact { inv with
      cursorCounts := by omega
      cursorBelow := by simp [phase]
      bitsInBuffer := by simp [phase]
      cursorAtEnd := fun _ => by rw [p, transfer_bits, groupCount]; omega
      doneIdle := fun _ => phase
      errcodeFault := by simp [phase, noError]
      errcmdClear := fun _ => inv.errcmdClear noFault
      logCounts := log }
  · exact { inv with
      cursorCounts := by omega
      cursorBelow := fun _ => by rw [p]; exact more
      bitsInBuffer := fun _ => inv.bitsInBuffer busy
      cursorAtEnd := by simp [phase]
      doneIdle := by simp [done, notDone]
      errcodeFault := by simp [phase, noError]
      errcmdClear := fun _ => inv.errcmdClear noFault
      logCounts := log }

/-- The start of an encode that fits keeps the invariant (R76, R88). -/
theorem inv_beginEncode {s : State} {n : Operand} (inv : s.Inv) (idle : s.phase = .idle) (fits : n.toNat ≤ bufferBits s) :
    (beginEncode n s).Inv := by
  have legal := inv.lenLegal
  have noFault : s.phase ≠ .fault := by simp [idle]
  have noError := errcode_of_not_fault inv noFault
  have bitsLegal : n.toNat ≤ 8 * s.cfg.maxLen := by unfold bufferBits at fits; omega
  by_cases zero : n = 0
  · subst zero
    exact { inv with
      bitsLegal := bitsLegal
      cursorCounts := rfl
      cursorBelow := fun busy => absurd (idle.symm.trans busy) (by decide)
      bitsInBuffer := fun _ => fits
      cursorAtEnd := fun _ => by simp [groupCount]
      doneIdle := fun _ => idle
      logCounts := rfl }
  · have phase := startPhase_of_ne_zero zero s.phase
    have positive : n.toNat ≠ 0 := fun h => zero (BitVec.eq_of_toNat_eq h)
    exact { inv with
      bitsLegal := bitsLegal
      cursorCounts := rfl
      cursorBelow := fun _ => Nat.pos_of_ne_zero positive
      bitsInBuffer := fun _ => fits
      cursorAtEnd := by simp [phase]
      doneIdle := fun done => absurd (startDone_eq_true_iff.mp done) zero
      errcodeFault := by simp [phase, noError]
      errcmdClear := fun _ => inv.errcmdClear noFault
      logCounts := rfl }

/-- Taking the inputs and the write port keep the invariant (R39, R99). -/
theorem inv_edgeStart {s : State} (inv : s.Inv) : (edgeStart s).Inv := by
  have dropped : (dropCycle s).Inv := inv_withCycles inv s.cycles.tail
  rw [edgeStart, writePort_eq]
  exact { dropped with
    bufWf := writePort_wf _ dropped.bufWf
    bufBound := writePort_bound _ dropped.bufBound }

/-! ### The text of an encode -/

/-- The characters of the text depend on the buffer's first `LEN` bytes alone (R37, R81). -/
theorem streamChar_congr {s t : State} (len : t.len = s.len)
    (bytes : ∀ i, i < s.len.toNat → Memory.read t.buf i = Memory.read s.buf i) : streamChar t = streamChar s := by
  funext k
  simp only [streamChar, streamGroup, streamBit_congr len bytes]

theorem streamText_congr {s t : State} (len : t.len = s.len)
    (bytes : ∀ i, i < s.len.toNat → Memory.read t.buf i = Memory.read s.buf i) (n : Nat) :
    streamText t n = streamText s n := by
  rw [streamText, streamText, streamChar_congr len bytes]

/-- The longer encode's text begins with the shorter's (R83). -/
theorem streamText_prefix (s : State) {m n : Nat} (le : m ≤ n) : streamText s m <+: streamText s n := by
  obtain ⟨d, count⟩ : ∃ d, groupCount n = groupCount m + d :=
    Nat.exists_eq_add_of_le (by unfold groupCount; omega)
  rw [streamText, streamText, count, List.range_add, List.map_append]
  exact List.prefix_append _ _

/-- In `BUSY` the character at the cursor is the text's next one (R43, R73). -/
theorem currentChar_eq_streamChar {s : State} {c : Byte} (inv : s.Inv) (busy : s.phase = .busy)
    (char : currentChar s = .ok c) : c = streamChar s s.outcnt.toNat := by
  obtain ⟨v, group, rfl⟩ := currentChar_ok.mp char
  rw [streamChar, inv.cursorCounts, ← currentGroup_toNat (byteIndex_lt_len inv busy) group, BitVec.ofNat_toNat,
    BitVec.setWidth_eq]

/-- A transfer extends the log by the text's next character (R43, R78). -/
theorem logIsText_transfer {s : State} {c : Byte} (inv : s.Inv) (busy : s.phase = .busy) (log : s.LogIsText)
    (char : currentChar s = .ok c) : (transfer c s).LogIsText := by
  rw [State.LogIsText, (transfer_toNat inv busy c).2, transfer_outlog, log, currentChar_eq_streamChar inv busy char,
    List.range_succ, List.map_append]
  rfl

/-- Past its last transfer an encode has transferred its whole text (R82). -/
theorem outlog_of_not_busy {s : State} (inv : s.Inv) (log : s.LogIsText) (ended : s.phase ≠ .busy) :
    s.outlog = streamText s s.bits.toNat := by
  have count : s.outcnt.toNat = groupCount s.bits.toNat := by
    have := inv.cursorCounts
    have := inv.cursorAtEnd ended
    omega
  rw [streamText, ← count]
  exact log

/-! ### The edges of an encode -/

/-- `t` is a state of the encode that `s` is in: the encode goes on or has ended, its log is the text so far, and `BUF`, `LEN` and
`BITS` are those of `s` (R31, R81). -/
structure EncodeFrom (s t : State) : Prop where
  inv : t.Inv
  log : t.LogIsText
  phase : t.phase = .busy ∨ encodeEnded t = true
  buf : t.buf = s.buf
  len : t.len = s.len
  bits : t.bits = s.bits

theorem encodeEnded_iff {s : State} : encodeEnded s = true ↔ s.phase = .idle ∧ s.done = true := by
  simp [encodeEnded]

theorem idle_of_encodeEnded {s : State} (ended : encodeEnded s = true) : s.phase = .idle :=
  (encodeEnded_iff.mp ended).1

theorem EncodeFrom.of_busy {s : State} (inv : s.Inv) (log : s.LogIsText) (busy : s.phase = .busy) : EncodeFrom s s :=
  ⟨inv, log, .inl busy, rfl, rfl, rfl⟩

/-- An encode that has left `BUSY` has ended (R78). -/
theorem EncodeFrom.encodeEnded_of_idle {s t : State} (enc : EncodeFrom s t) (idle : t.phase = .idle) :
    encodeEnded t = true :=
  enc.phase.resolve_left (by simp [idle])

/-- An encode that has ended has transferred the text of its buffer (R81, R82). -/
theorem EncodeFrom.outlog_of_idle {s t : State} (enc : EncodeFrom s t) (idle : t.phase = .idle) :
    t.outlog = streamText s s.bits.toNat := by
  have same : streamText t s.bits.toNat = streamText s s.bits.toNat :=
    streamText_congr enc.len (fun i _ => by rw [enc.buf]) _
  rw [outlog_of_not_busy enc.inv enc.log (by simp [idle]), enc.bits, same]

/-- A transfer is an edge of the encode (R78). -/
theorem EncodeFrom.of_transfer {s t : State} {c : Byte} (enc : EncodeFrom s t) (busy : t.phase = .busy)
    (char : currentChar t = .ok c) : EncodeFrom s (transfer c (dropCycle t)) := by
  have inv : (dropCycle t).Inv := inv_withCycles enc.inv t.cycles.tail
  have log : (dropCycle t).LogIsText := enc.log
  have char' : currentChar (dropCycle t) = .ok c := (currentChar_congr rfl rfl rfl rfl).trans char
  refine ⟨inv_transfer inv busy c, logIsText_transfer inv busy log char', ?_, enc.buf, enc.len, enc.bits⟩
  rcases transferPhase_cases (s := dropCycle t) busy with ⟨idle, done, -⟩ | ⟨busy', -, -⟩
  · exact .inr (encodeEnded_iff.mpr ⟨idle, done⟩)
  · exact .inl busy'

/-- Whatever the host drives without reset, an edge in `BUSY` is an edge of the encode (R31, R78). -/
theorem EncodeFrom.of_step {s t u : State} (enc : EncodeFrom s t) (busy : t.phase = .busy)
    (noReset : (currentInputs t).rst = false) (next : step t = .next u) :
    EncodeFrom s u ∧ u.cycles = t.cycles.tail := by
  cases edgeEffect_of_step next noReset with
  | setlen _ acc _ | enc _ acc _ | encf acc | fault _ acc _ => exact absurd acc (not_accepts_of_busy busy)
  | transfer c tr char => exact ⟨enc.of_transfer busy char, rfl⟩
  | stall c busy tr char =>
    exact ⟨⟨inv_withCycles enc.inv t.cycles.tail, enc.log, .inl busy, enc.buf, enc.len, enc.bits⟩, rfl⟩
  | hold notBusy acc => exact absurd busy notBusy

/-- A run without reset whose every edge starts in `BUSY` stays in the encode (R81). -/
theorem EncodeFrom.of_runSteps {s : State} (k : Nat) : ∀ {t u : State}, EncodeFrom s t →
    (∀ j, j < k → (inputsAt t j).rst = false ∧ ∃ w, runSteps j t = .next w ∧ w.phase = .busy) →
    runSteps k t = .next u → EncodeFrom s u := by
  induction k with
  | zero =>
    intro t u enc edges run
    cases run
    exact enc
  | succ k ih =>
    intro t u enc edges run
    obtain ⟨noReset, w, start, busy⟩ := edges 0 k.succ_pos
    cases start
    cases next : step t with
    | next v =>
      obtain ⟨enc', cycles⟩ := enc.of_step busy noReset next
      refine ih enc' (fun j hj => ?_) (runSteps_succ next k ▸ run)
      rw [inputsAt_of_cycles_tail cycles, ← runSteps_succ next]
      exact edges (j + 1) (Nat.succ_lt_succ hj)
    | fault f => simp [runSteps, next] at run
    | refused r => simp [runSteps, next] at run

/-! ### An encode without stalls runs to its end -/

/-- A `BUSY` edge with `out_ready = 1` transfers the character at the cursor (R78). -/
theorem step_of_transfers {s : State} {c : Byte} (busy : s.phase = .busy) (noReset : (currentInputs s).rst = false)
    (ready : (currentInputs s).outReady = true) (char : currentChar s = .ok c) :
    step s = .next (transfer c (dropCycle s)) := by
  rw [step_of_busy busy noReset, char]
  exact congrArg Host.Outcome.next (if_pos ready)

/-- With its buffer written and `out_ready = 1` an encode in `BUSY` transfers a character (R78, R85). -/
theorem EncodeFrom.exists_transfer {s t : State} (enc : EncodeFrom s t) (allWritten : bufferWritten s)
    (busy : t.phase = .busy) (noReset : (currentInputs t).rst = false) (ready : (currentInputs t).outReady = true) :
    ∃ c, step t = .next (transfer c (dropCycle t)) ∧ EncodeFrom s (transfer c (dropCycle t)) := by
  obtain ⟨c, char⟩ := exists_currentChar_of_written enc.inv busy fun i read => by
    rw [written, enc.buf]
    exact allWritten i (enc.len ▸ lt_len_of_mem_readSet enc.inv busy read)
  exact ⟨c, step_of_transfers busy noReset ready char, enc.of_transfer busy char⟩

/-- An encode is in `BUSY` exactly while transfers are to come (R82). -/
theorem EncodeFrom.busy_iff {s t : State} (enc : EncodeFrom s t) :
    t.phase = .busy ↔ t.outcnt.toNat < groupCount s.bits.toNat := by
  have counts := enc.inv.cursorCounts
  rw [← enc.bits]
  constructor
  · intro busy
    have below := enc.inv.cursorBelow busy
    unfold groupCount
    omega
  · intro more
    by_contra notBusy
    have atEnd := enc.inv.cursorAtEnd notBusy
    omega

/-- `m` edges without reset and stall carry an encode with `m` transfers to come to its end (R78, R82). -/
theorem EncodeFrom.runs_to_end {s : State} (allWritten : bufferWritten s) (m : Nat) : ∀ {t : State}, EncodeFrom s t →
    t.outcnt.toNat + m = groupCount s.bits.toNat →
    (∀ k, k < m → (inputsAt t k).rst = false ∧ (inputsAt t k).outReady = true) →
    ∃ u, runSteps m t = .next u ∧ EncodeFrom s u ∧ u.phase = .idle := by
  induction m with
  | zero =>
    intro t enc count inputs
    have notBusy : t.phase ≠ .busy := fun busy => by
      have := enc.busy_iff.mp busy
      omega
    exact ⟨t, rfl, enc, idle_of_encodeEnded (enc.phase.resolve_left notBusy)⟩
  | succ m ih =>
    intro t enc count inputs
    have busy := enc.busy_iff.mpr (by omega)
    obtain ⟨noReset, ready⟩ := inputs 0 m.succ_pos
    obtain ⟨c, next, enc'⟩ := enc.exists_transfer allWritten busy noReset ready
    have outcnt := (transfer_toNat enc.inv busy c).2
    rw [runSteps_succ next]
    refine ih enc' ?_ fun k hk => ?_
    · rw [show (transfer c (dropCycle t)).outcnt = (transfer c t).outcnt from rfl]
      omega
    · rw [inputsAt_of_cycles_tail (s := t) rfl]
      exact inputs (k + 1) (Nat.succ_lt_succ hk)

/-! ### `ENC` at its accept -/

theorem startDone_of_ne_zero {n : Operand} (h : n ≠ 0) : startDone n = false := decide_eq_false h

/-- `ENC n` that fits starts an `n`-bit encode (R76). -/
theorem exec_enc_of_fits {s : State} {n : Operand} (fits : n.toNat ≤ bufferBits s) :
    exec (.enc n) s = .next (beginEncode n s) := by
  simp [exec, execEnc, bitsFit, fits]

/-- `ENC n` that does not fit faults (R76, R103). -/
theorem exec_enc_of_not_fits {s : State} {n : Operand} (tooMany : bufferBits s < n.toNat) :
    exec (.enc n) s = .next (raiseFault .insufficientInput (encode (.enc n)) s) := by
  simp [exec, execEnc, bitsFit, tooMany]

/-- The word of `ENC n` is read back as `ENC n` (R58, R63). -/
theorem decode_encode_enc (n : Operand) : decode (encode (.enc n)) = .enc n := by
  rw [decode_of_opc_two (w := encode (.enc n)) (opcField_commandWord _ _)]
  exact congrArg Instr.enc (operandField_commandWord _ _)

/-- The state after an accepted `ENC n` that fits is the first of its encode (R76). -/
theorem EncodeFrom.of_beginEncode {s : State} {n : Operand} (inv : s.Inv) (idle : s.phase = .idle)
    (fits : n.toNat ≤ bufferBits s) : EncodeFrom (beginEncode n s) (beginEncode n s) := by
  refine ⟨inv_beginEncode inv idle fits, rfl, ?_, rfl, rfl, rfl⟩
  by_cases zero : n = 0
  · subst zero
    exact .inr (encodeEnded_iff.mpr ⟨idle, rfl⟩)
  · exact .inl (startPhase_of_ne_zero zero s.phase)

/-- An accepted `ENC n` runs to its end on a written buffer, without reset and stall (R76, R78, R101). -/
theorem encode_runs_of_accepts {s : State} {n : Operand} (inv : s.Inv) (acc : accepts s (.enc n))
    (fits : n.toNat ≤ bufferBits s) (allWritten : bufferWritten (edgeStart s))
    (inputs : ∀ k, 1 ≤ k → k ≤ groupCount n.toNat → (inputsAt s k).rst = false ∧ (inputsAt s k).outReady = true) :
    ∃ t, runSteps (1 + groupCount n.toNat) s = .next t ∧ EncodeFrom (beginEncode n (edgeStart s)) t ∧ t.phase = .idle := by
  have fits' : n.toNat ≤ bufferBits (edgeStart s) := by rwa [bufferBits_edgeStart]
  have idle : (edgeStart s).phase = .idle := (edgeStart_phase s).trans (phase_of_accepts acc)
  obtain ⟨noReset, -, valid⟩ := acceptsCommand_iff.mp acc.1
  have next : step s = .next (beginEncode n (edgeStart s)) := by
    rw [step_of_accept (phase_of_accepts acc) noReset valid, acc.2, exec_enc_of_fits fits']
  rw [Nat.add_comm, runSteps_succ next]
  refine EncodeFrom.runs_to_end (s := beginEncode n (edgeStart s)) allWritten _
    (.of_beginEncode (inv_edgeStart inv) idle fits') (Nat.zero_add _) fun k hk => ?_
  rw [inputsAt_of_cycles_tail (t := beginEncode n (edgeStart s)) (edgeStart_cycles s)]
  exact inputs (k + 1) (Nat.succ_pos k) hk

/-- The state `s` with a host that offers `ENC n` alone and then waits out the encode. -/
def offerEnc (s : State) (n : Operand) : State :=
  { s with cycles := offerInputs (encode (.enc n)) :: List.replicate (groupCount n.toNat) Inputs.inactive }

theorem inputsAt_offerEnc {s : State} {n : Operand} {k : Nat} (after : 1 ≤ k) :
    inputsAt (offerEnc s n) k = Inputs.inactive := by
  obtain ⟨k, rfl⟩ := Nat.exists_eq_add_of_le' after
  simp only [inputsAt, offerEnc, List.getD_eq_getElem?_getD, List.getElem?_cons_succ, List.getElem?_replicate]
  split <;> rfl

/-- `ENC n` offered alone to a written buffer transfers the text of its first `n` bits (R76, R82, R101). -/
theorem outlog_of_offerEnc {s : State} {n : Operand} (inv : s.Inv) (idle : s.phase = .idle) (allWritten : bufferWritten s)
    (fits : n.toNat ≤ bufferBits s) :
    ∃ t, runSteps (1 + groupCount n.toNat) (offerEnc s n) = .next t ∧ encodeEnded t = true ∧
      t.outlog = streamText s n.toNat := by
  have start : edgeStart (offerEnc s n) = dropCycle (offerEnc s n) := edgeStart_of_not_writeEffective rfl
  have acc : accepts (offerEnc s n) (.enc n) := ⟨acceptsCommand_iff.mpr ⟨rfl, idle, rfl⟩, decode_encode_enc n⟩
  have inv' : (offerEnc s n).Inv := inv_withCycles inv _
  obtain ⟨t, run, enc, ended⟩ := encode_runs_of_accepts inv' acc fits (by rw [start]; exact allWritten)
    fun k after _ => by rw [inputsAt_offerEnc after]; exact ⟨rfl, rfl⟩
  refine ⟨t, run, enc.encodeEnded_of_idle ended, ?_⟩
  rw [enc.outlog_of_idle ended, start]
  exact streamText_congr rfl (fun _ _ => rfl) _

/-! ### The worked example of R76 -/

/-- R76's worked example: the character of `0x80` at cursor 0 is `o`, whatever stands after it. -/
theorem currentChar_of_0x80 {s : State} (p : s.p = 0) (byte : Memory.read s.buf 0 = some 0x80) :
    currentChar s = .ok 0x6F := by
  have index : byteIndex s = 0 := by simp [byteIndex, p]
  have offset : bitOffset s = 0 := by simp [bitOffset, p]
  have first : bufRead s (byteIndex s) = .ok 0x80 := bufRead_ok.mpr ⟨by
    rw [index]
    exact (maxLen_bounds s.cfg).1, index ▸ byte⟩
  have second : secondByte s = .ok 0 := by simp [secondByte, crosses, offset]
  have group : groupExtract 0x80 0 (hasNext s) (bitOffset s) = 16 := by
    rw [offset]
    cases hasNext s <;> decide
  exact currentChar_ok.mpr ⟨16, currentGroup_ok.mpr ⟨0x80, 0, first, second, group.symm⟩, rfl⟩

/-- R76's worked example: `ENC 5` accepted and one transfer. -/
theorem encode_0x80 {s : State} (idle : s.phase = .idle) (len : s.len = 1) (byte : Memory.read s.buf 0 = some 0x80)
    (cycles : s.cycles = [offerInputs 0x20000005, Inputs.inactive]) :
    ∃ t, runSteps 2 s = .next t ∧ t.outlog = [0x6F] ∧ t.phase = .idle ∧ t.done = true := by
  have inputs : currentInputs s = offerInputs 0x20000005 := by simp [currentInputs, inputsAt, cycles]
  have start : edgeStart s = dropCycle s := edgeStart_of_not_writeEffective (by rw [inputs]; rfl)
  have fits : (5 : Operand).toNat ≤ bufferBits (dropCycle s) := by simp [bufferBits, len]
  have accept : step s = .next (beginEncode 5 (dropCycle s)) := by
    rw [step_of_accept idle (by rw [inputs]; rfl) (by rw [inputs]; rfl), inputs, start]
    exact exec_enc_of_fits fits
  have inputs' : currentInputs (beginEncode 5 (dropCycle s)) = Inputs.inactive := by
    simp [currentInputs, inputsAt, cycles]
  have output : step (beginEncode 5 (dropCycle s)) =
      .next (transfer 0x6F (dropCycle (beginEncode 5 (dropCycle s)))) :=
    step_of_transfers rfl (by rw [inputs']; rfl) (by rw [inputs']; rfl) (currentChar_of_0x80 rfl byte)
  have run : runSteps 2 s = .next (transfer 0x6F (dropCycle (beginEncode 5 (dropCycle s)))) := by
    rw [runSteps_succ accept, runSteps_succ output, runSteps]
  exact ⟨_, run, rfl, rfl, rfl⟩

/-! ### The obligations -/

/-- Settles O44: every edge of the run is an edge of the encode that stands in `s`, and at its end the log is the whole text. -/
theorem encodeIgnoresStalls : Obligations.EncodeIgnoresStalls := by
  refine ⟨fun k s t inv log edges run busy idle => ?_, fun s s' n len bytes => streamText_congr len bytes n⟩
  have enc : EncodeFrom s t := (EncodeFrom.of_busy inv log busy).of_runSteps k edges run
  have text := enc.outlog_of_idle idle
  have length : t.outlog.length = groupCount s.bits.toNat := by rw [text, streamText, List.length_map, List.length_range]
  exact ⟨text, length, enc.buf, enc.len, enc.bits, enc.encodeEnded_of_idle idle⟩

/-- Settles O33: bit by bit, since the cursor's byte lies in the buffer. -/
theorem groupIsStreamBits : Obligations.GroupIsStreamBits :=
  fun _ _ inv busy group => currentGroup_toNat (byteIndex_lt_len inv busy) group

/-- Settles O37: the invariant bounds the cursor, and the cursor bounds the two bytes of the read set. -/
theorem readsInRange : Obligations.ReadsInRange := by
  intro s inv busy
  have first := byteIndex_lt_len inv busy
  refine ⟨inv.cursorBelow busy, inv.bitsInBuffer busy, first, by omega, fun i read => ?_⟩
  have inside := lt_len_of_mem_readSet inv busy read
  exact ⟨inside, inside.trans_le inv.lenLegal⟩

/-- Settles O42: a transfer appends a code of the ROM, and no other edge adds to the log. -/
theorem stepKeepsAlphabet : Obligations.StepKeepsAlphabet := by
  intro s t closed next
  have noCodes {u : State} (empty : u.outlog = []) : u.AlphabetClosed := by simp [State.AlphabetClosed, empty]
  have sameLog {u : State} (same : u.outlog = s.outlog) : u.AlphabetClosed := by rwa [State.AlphabetClosed, same]
  cases reset : (currentInputs s).rst with
  | true => exact noCodes (by rw [eq_resetWith_of_step next reset, resetWith_outlog])
  | false =>
    cases edgeEffect_of_step next reset with
    | enc _ _ _ | encf _ => exact noCodes rfl
    | setlen _ _ _ | fault _ _ _ | hold _ _ => exact sameLog (edgeStart_outlog s)
    | stall _ _ _ _ => exact sameLog (dropCycle_outlog s)
    | transfer c tr char =>
      intro code mem
      rcases List.mem_append.mp mem with old | new
      · exact closed code old
      · exact List.mem_singleton.mp new ▸ currentChar_mem char

/-- Settles O46: both encodes run to their texts, and the texts are prefixes of one stream. -/
theorem shorterEncodeIsPrefix : Obligations.ShorterEncodeIsPrefix := by
  intro s n1 n2 inv idle allWritten shorter fits
  obtain ⟨t1, run1, ended1, text1⟩ := outlog_of_offerEnc inv idle allWritten (shorter.le.trans fits)
  obtain ⟨t2, run2, ended2, text2⟩ := outlog_of_offerEnc inv idle allWritten fits
  refine ⟨t1, t2, run1, run2, ended1, ended2, ?_⟩
  rw [text1, text2]
  exact streamText_prefix s shorter.le

/-- Settles O20: `ENC n` by its operand, and the worked example run edge by edge. -/
theorem encEffect : Obligations.EncEffect := by
  refine ⟨fun n s idle => ⟨fun fits nonzero => ?_, fun zero => ?_, fun tooMany => ?_, fun big => ?_⟩,
    fun s idle len byte cycles => encode_0x80 idle len byte cycles⟩
  · rw [exec_enc_of_fits fits, beginEncode, startPhase_of_ne_zero nonzero, startDone_of_ne_zero nonzero]
  · subst zero
    exact exec_enc_of_fits (Nat.zero_le _)
  · rw [exec_enc_of_not_fits tooMany, encode_enc]
    rfl
  · have := bufferBits_lt s
    unfold bufferBits at this
    omega

end Sys2Proof.Proofs
end

section
/-! The statements on the full-byte encoder (spec/41_full_byte_encoder.md R89, R90): `ENCF` is `ENC` of the whole buffer, which
always fits, and one word alone is read as `ENCF`. -/

namespace Sys2Proof.Proofs

open Sys2Proof.Machine Sys2Proof.Laws

/-! ### `ENCF` at its accept -/

/-- `ENCF` starts an encode of the whole buffer (R88). -/
theorem exec_encf (s : State) : exec .encf s = .next (beginEncode (fullBits s) s) := rfl

/-- The precondition of `ENC` holds with equality for `8 * LEN`, so that `ENCF` is that `ENC` (R75, R89, R90). -/
theorem exec_encf_eq_exec_enc (s : State) : exec .encf s = exec (.enc (fullBits s)) s := by
  have fits : (fullBits s).toNat ≤ bufferBits s := (fullBits_toNat s).le
  rw [exec_encf, exec_enc_of_fits fits]

/-- The start of an encode is no way into `FAULT` (R76). -/
theorem startPhase_ne_fault {old : Phase} (h : old ≠ .fault) (n : Operand) : startPhase n old ≠ .fault := by
  by_cases zero : n = 0
  · rwa [zero, startPhase_zero]
  · rw [startPhase_of_ne_zero zero]
    decide

/-! ### The words of `ENCF` and of `ENC` of the whole buffer -/

/-- `ENCF` by the two fields of a word (R57, R58). -/
theorem decode_eq_encf_iff_fields {w : Word} : decode w = .encf ↔ opcField w = 0x3 ∧ operandField w = 0 := by
  constructor
  · intro encf
    have notIllegal : ¬ (decode w).isIllegal = true := by simp [encf, Instr.isIllegal]
    have notOne : opcField w ≠ 0x1 := fun one => by simp [decode_of_opc_one one] at encf
    have notTwo : opcField w ≠ 0x2 := fun two => by simp [decode_of_opc_two two] at encf
    by_contra otherFields
    exact notIllegal ((isIllegal_decode_iff w).mpr ⟨notOne, notTwo, otherFields⟩)
  · rintro ⟨three, zero⟩
    rw [decode_of_opc_three three, zero]
    rfl

/-- One word is read as `ENCF` (R57, R89). -/
theorem decode_eq_encf_iff {w : Word} : decode w = .encf ↔ w = 0x30000000#32 := by
  rw [decode_eq_encf_iff_fields]
  constructor
  · rintro ⟨three, zero⟩
    rw [← commandWord_fields w, three, zero]
    decide
  · rintro rfl
    decide

/-- `8 * LEN` has a word as an operand (R63, R90). -/
theorem bufferBits_encodable (s : State) : bufferBits s < 2 ^ 28 := (bufferBits_lt s).trans (by norm_num)

/-- The word of `ENC (8 * LEN)`, whose operand has the width to hold it (R63, R90). -/
theorem encode_enc_fullBits (s : State) :
    encode (.enc (fullBits s)) = 0x20000000#32 ||| BitVec.ofNat 32 (8 * s.len.toNat) := by
  rw [encode_enc, fullBits, setWidth_ofNat_of_lt (bufferBits_encodable s), bufferBits]

/-! ### One edge under several words -/

/-- The step that accepts a word runs its command on a state that does not depend on the word (R95, R99). -/
theorem step_withInputs_of_accept {s : State} {inp : Inputs} (idle : s.phase = .idle) (noReset : inp.rst = false)
    (valid : inp.cmdValid = true) (w : Word) :
    step (withInputs s { inp with cmdData := w }) = exec (decode w) (edgeStart (withInputs s inp)) := by
  have start : edgeStart (withInputs s { inp with cmdData := w }) = edgeStart (withInputs s inp) :=
    edgeStart_withInputs (s := withInputs s inp) rfl rfl rfl rfl
  rw [step_of_accept (s := withInputs s { inp with cmdData := w }) idle noReset valid, start, currentInputs_withInputs]

/-! ### The obligations -/

/-- Settles O23: both words start the whole buffer's encode from the same state. -/
theorem encfIsEncOfFullLength : Obligations.EncfIsEncOfFullLength := by
  intro s inp idle noReset valid
  refine ⟨?_, bufferBits_encodable s⟩
  have encf : decode 0x30000000 = .encf := decode_eq_encf_iff.mpr rfl
  have sameLength : fullBits (edgeStart (withInputs s inp)) = fullBits s := fullBits_edgeStart (withInputs s inp)
  rw [step_withInputs_of_accept idle noReset valid, step_withInputs_of_accept idle noReset valid,
    ← encode_enc_fullBits, decode_encode_enc, encf, exec_encf_eq_exec_enc, sameLength]

/-- Settles O22: the start of an encode leaves `IDLE` for `BUSY` alone and keeps the error registers. -/
theorem encfNeverFaults : Obligations.EncfNeverFaults := by
  refine ⟨fun s idle => ?_, fun w => decode_eq_encf_iff⟩
  have noFault : s.phase ≠ .fault := by simp [idle]
  exact ⟨_, exec_encf s, startPhase_ne_fault noFault _, beginEncode_errcode _ s, beginEncode_errcmd _ s⟩

end Sys2Proof.Proofs
end

section
/-! The statements on the sequencer and the control commands (spec/42_sequencer_and_control.md R94, R96, R97, R99, R100): the step
of one edge by `rst`, the phase and `cmd_valid`; the command port where no word is accepted; `SETLEN`; the words that are no
command. -/

namespace Sys2Proof.Proofs

open Sys2Proof.Machine Sys2Proof.Laws

/-! ### The step by `rst`, the phase and `cmd_valid` -/

/-- A reset overrides whatever else the edge could do (R114, R122). -/
theorem step_of_reset {s : State} (reset : (currentInputs s).rst = true) :
    step s = .next (State.resetWith s.cfg s.cycles.tail) := by
  simp [step, edgeWork, reset, resetEdge]

theorem step_of_idle_of_no_word {s : State} (idle : s.phase = .idle) (noReset : (currentInputs s).rst = false)
    (noWord : (currentInputs s).cmdValid = false) : step s = .next (edgeStart s) := by
  simp [step, edgeWork, idle, noReset, noWord]

theorem step_eq_outputStep_of_busy {s : State} (busy : s.phase = .busy) (noReset : (currentInputs s).rst = false) :
    step s = outputStep (currentInputs s) (edgeStart s) := by
  simp [step, edgeWork, busy, noReset]

theorem step_of_fault {s : State} (fault : s.phase = .fault) (noReset : (currentInputs s).rst = false) :
    step s = .next (edgeStart s) := by
  simp [step, edgeWork, fault, noReset]

/-- The state an edge's work starts from in any phase, written out (R39, R40, R99). -/
theorem edgeStart_of_no_reset {s : State} (noReset : (currentInputs s).rst = false) :
    edgeStart s =
      { s with
        cycles := s.cycles.tail
        buf := if (currentInputs s).bufWe = true ∧ s.phase = .idle ∧ (currentInputs s).bufAddr.toNat < s.cfg.maxLen
          then Memory.write s.buf (currentInputs s).bufAddr.toNat (currentInputs s).bufWdata else s.buf } := by
  by_cases idle : s.phase = .idle
  · simpa only [idle, true_and] using edgeStart_of_idle idle noReset
  · rw [edgeStart_of_not_idle idle, if_neg fun effective => idle effective.2.1]
    rfl

/-! ### The command port -/

theorem cmdReady_iff {s : State} : cmdReady s = true ↔ s.phase = .idle := decide_eq_true_iff

/-- An `IDLE` edge without reset accepts whatever word is offered (R94). -/
theorem cmdValid_of_not_acceptsCommand {s : State} (h : acceptsCommand s = false) (idle : s.phase = .idle)
    (noReset : (currentInputs s).rst = false) : (currentInputs s).cmdValid = false := by
  simpa [acceptsCommand, idle, noReset] using h

/-- The work of an edge that accepts no word goes by `rst` and the phase alone (R94). -/
theorem edgeWork_of_not_acceptsCommand {s : State} (h : acceptsCommand s = false) :
    edgeWork s = if (currentInputs s).rst then .reset else if s.phase = .busy then .output else .hold := by
  unfold edgeWork
  split
  · rfl
  next noReset =>
    cases phase : s.phase with
    | idle =>
      simp [cmdValid_of_not_acceptsCommand h phase (Bool.eq_false_iff.mpr noReset)]
    | busy | fault => rfl

/-- Without an accept the step is the same whatever the command port carries that is not accepted either (R94). -/
theorem step_withInputs_of_not_acceptsCommand {s : State} {v : Bool} {w : Word} (h : acceptsCommand s = false)
    (h' : acceptsCommand (withInputs s { currentInputs s with cmdValid := v, cmdData := w }) = false) :
    step (withInputs s { currentInputs s with cmdValid := v, cmdData := w }) = step s := by
  refine step_congr ?_ (dropCycle_withInputs s _) (edgeStart_withInputs rfl rfl rfl rfl) rfl
  rw [edgeWork_of_not_acceptsCommand h, edgeWork_of_not_acceptsCommand h']
  rfl

/-! ### `SETLEN` at its accept -/

/-- `SETLEN n` that fits sets the length (R96). -/
theorem exec_setlen_of_fits {s : State} {n : Operand} (fits : n.toNat ≤ s.cfg.maxLen) :
    exec (.setlen n) s = .next (setLength n s) := by
  simp [exec, execSetlen, lengthFits, fits]

/-- `SETLEN n` that does not fit faults (R96, R106). -/
theorem exec_setlen_of_not_fits {s : State} {n : Operand} (tooLong : s.cfg.maxLen < n.toNat) :
    exec (.setlen n) s = .next (raiseFault .lenRange (encode (.setlen n)) s) := by
  simp [exec, execSetlen, lengthFits, tooLong]

theorem lengthOperand_eq_setWidth (n : Operand) : lengthOperand n = n.setWidth 24 := rfl

/-- The empty buffer holds no bit (R75). -/
theorem bufferBits_of_len_zero {s : State} (empty : s.len = 0) : bufferBits s = 0 := by
  simp [bufferBits, empty]

/-! ### The words that are no command -/

/-- The decoder puts the two fields it is given into the row it names (R57, R58). -/
theorem opc_operand_decodeFields (o : BitVec 4) (n : Operand) :
    (decodeFields o n).opc = o ∧ (decodeFields o n).operand = n := by
  rcases opc_cases o with rfl | rfl | rfl | rfl | rfl | rfl | rfl | rfl | rfl | rfl | rfl | rfl | rfl | rfl | rfl | rfl
  case inr.inr.inr.inl =>
    have three : decodeFields 0x3 n = decodeOpc3 n := rfl
    rcases decodeOpc3_cases n with ⟨rfl, encf⟩ | ⟨-, illegal⟩
    · rw [three, encf]
      exact ⟨rfl, rfl⟩
    · rw [three, illegal]
      exact ⟨rfl, rfl⟩
  all_goals exact ⟨rfl, rfl⟩

/-- The row a word decodes to stands for that word (R58, R59). -/
theorem encode_decode (w : Word) : encode (decode w) = w := by
  obtain ⟨opc, operand⟩ := opc_operand_decodeFields (opcField w) (operandField w)
  rw [encode, decode, opc, operand, commandWord_fields]

theorem faultCause_of_isIllegal {i : Instr} (illegal : i.isIllegal = true) (s : State) :
    faultCause i s = .illegalCommand := by
  cases i
  case setlen | enc | encf => exact absurd illegal Bool.false_ne_true
  all_goals rfl

/-- Every `ILLEGAL` row takes the fault `ILLEGAL_COMMAND` with its own word (R97). -/
theorem exec_of_isIllegal {i : Instr} (illegal : i.isIllegal = true) (s : State) :
    exec i s = .next (raiseFault .illegalCommand (encode i) s) := by
  rcases exec_cases i s with ⟨n, rfl, -⟩ | ⟨n, rfl, -⟩ | ⟨rfl, -⟩ | ⟨-, faults⟩
  case inr.inr.inr => rw [faults, faultCause_of_isIllegal illegal]
  all_goals exact absurd illegal Bool.false_ne_true

/-- The ranges of R104 and R105 hold only words that decode to an `ILLEGAL` row. -/
theorem isIllegal_decode_of_ranges {w : Word}
    (ranges : w.toNat / 2 ^ 28 = 0 ∨ 4 ≤ w.toNat / 2 ^ 28 ∨ (w.toNat / 2 ^ 28 = 3 ∧ w.toNat % 2 ^ 28 ≠ 0)) :
    (decode w).isIllegal = true := by
  obtain ⟨-, -, -, illegalIff⟩ := decoderByFields.1 w
  exact illegalIff.mpr (by omega)

/-! ### The obligations -/

/-- Settles O25: such a word decodes to an `ILLEGAL` row, whose own word is the accepted one. -/
theorem illegalWordsFault : Obligations.IllegalWordsFault := by
  intro s acc ranges
  obtain ⟨noReset, idle, valid⟩ := acceptsCommand_iff.mp acc
  refine ⟨?_, rfl⟩
  rw [step_of_accept idle noReset valid, exec_of_isIllegal (isIllegal_decode_of_ranges ranges), encode_decode]
  rfl

/-- Settles O11: the accept condition, the step of an accept, and the step of an edge without one. -/
theorem commandAcceptance : Obligations.CommandAcceptance := by
  intro s
  refine ⟨cmdReady_iff, ?_, fun valid ready noReset => step_of_accept (cmdReady_iff.mp ready) noReset valid,
    fun notAccepted => ⟨fun v w => step_withInputs_of_not_acceptsCommand notAccepted, fun idle noReset => ?_⟩⟩
  · rw [acceptsCommand_iff, cmdReady_iff]
    tauto
  · exact step_of_idle_of_no_word idle noReset (cmdValid_of_not_acceptsCommand notAccepted idle noReset)

/-- Settles O12: one lemma for each branch of the step, and one for the state its work starts from. -/
theorem completeStep : Obligations.CompleteStep := fun _ =>
  ⟨step_of_reset, fun noReset =>
    ⟨fun idle valid => step_of_accept idle noReset valid,
      fun idle noWord => step_of_idle_of_no_word idle noReset noWord,
      fun busy => step_eq_outputStep_of_busy busy noReset,
      fun fault => step_of_fault fault noReset,
      edgeStart_of_no_reset noReset⟩⟩

/-- Settles O15: outside `IDLE` the write port does nothing, so that the edge only uses its inputs up. -/
theorem faultAbsorbs : Obligations.FaultAbsorbs := by
  intro s fault
  refine ⟨by simp [cmdReady, fault], by simp [outValid, fault], fun noReset => ?_,
    fun reset => ⟨_, step_of_reset reset, resetWith_phase _ _⟩⟩
  rw [step_of_fault fault noReset, edgeStart_of_not_idle (by simp [fault])]
  rfl

/-- Settles O19: `SETLEN` by its operand, where `MAX_LEN < 2^24` makes the cut to 24 bits exact; and the encodes of the empty
buffer. -/
theorem setlenEffect : Obligations.SetlenEffect := by
  intro n s idle
  refine ⟨fun fits => ⟨exec_setlen_of_fits fits, ?_⟩, fun tooLong => ?_, fun empty => ⟨fun m nonzero => ?_, ?_, ?_⟩⟩
  · rw [← lengthOperand_eq_setWidth, lengthOperand_toNat (s := s) (decide_eq_true fits)]
  · rw [exec_setlen_of_not_fits tooLong, encode_setlen]
    rfl
  · have tooMany : bufferBits s < m.toNat := by
      rw [bufferBits_of_len_zero empty]
      exact Nat.pos_of_ne_zero fun zero => nonzero (BitVec.eq_of_toNat_eq zero)
    exact ⟨_, exec_enc_of_not_fits tooMany, raiseFault_phase _ _ s⟩
  · exact ⟨_, exec_enc_of_fits (Nat.zero_le _), idle⟩
  · exact ⟨_, exec_encf s, by rw [beginEncode_phase, fullBits_eq_zero_iff.mpr empty, startPhase_zero, idle]⟩

end Sys2Proof.Proofs
end

section
/-! The statements on the hardware faults (spec/60_exceptions.md R102, R113): a step enters `FAULT` by accepting a command that meets
its fault condition, and in no other way; the next state is then fault entry with that command's code and word. -/

namespace Sys2Proof.Proofs

open Sys2Proof.Machine Sys2Proof.Laws

/-! ### The fault conditions by command -/

/-- A decoded word is one of the three commands or an `ILLEGAL` row (R58). -/
theorem isCommand_or_isIllegal (i : Instr) :
    (∃ n, i = .setlen n) ∨ (∃ n, i = .enc n) ∨ i = .encf ∨ i.isIllegal = true := by
  cases i with
  | setlen n => exact .inl ⟨n, rfl⟩
  | enc n => exact .inr (.inl ⟨n, rfl⟩)
  | encf => exact .inr (.inr (.inl rfl))
  | _ => exact .inr (.inr (.inr rfl))

/-- The commands that fault, each with its condition (R102). -/
theorem faultCause_ne_none_iff {i : Instr} {s : State} :
    faultCause i s ≠ .none ↔
      (∃ n, i = .enc n ∧ 8 * s.len.toNat < n.toNat) ∨ i.isIllegal = true ∨
        ∃ n, i = .setlen n ∧ s.cfg.maxLen < n.toNat := by
  rcases isCommand_or_isIllegal i with ⟨n, rfl⟩ | ⟨n, rfl⟩ | rfl | illegal
  · simp [faultCause, Instr.isIllegal]
  · simp [faultCause, Instr.isIllegal]
  · simp [faultCause, Instr.isIllegal]
  · simp [faultCause_of_isIllegal illegal, illegal]

/-- Each code belongs to one kind of word, so that the code of a fault tells which was accepted (R102, R114). -/
theorem faultCause_eq_iff {i : Instr} {s : State} (cause : faultCause i s ≠ .none) :
    (faultCause i s = .insufficientInput ↔ ∃ n, i = .enc n) ∧
    (faultCause i s = .illegalCommand ↔ i.isIllegal = true) ∧
    (faultCause i s = .lenRange ↔ ∃ n, i = .setlen n) := by
  rcases isCommand_or_isIllegal i with ⟨n, rfl⟩ | ⟨n, rfl⟩ | rfl | illegal
  · have tooLong : faultCause (.setlen n) s = .lenRange := by simpa [faultCause] using cause
    simp [tooLong, Instr.isIllegal]
  · have tooMany : faultCause (.enc n) s = .insufficientInput := by simpa [faultCause] using cause
    simp [tooMany, Instr.isIllegal]
  · exact absurd rfl cause
  · have notEnc : ¬ ∃ n, i = .enc n := by
      rintro ⟨n, rfl⟩
      exact Bool.false_ne_true illegal
    have notSetlen : ¬ ∃ n, i = .setlen n := by
      rintro ⟨n, rfl⟩
      exact Bool.false_ne_true illegal
    simp [faultCause_of_isIllegal illegal, illegal, notEnc, notSetlen]

/-! ### The step into `FAULT` -/

/-- Where `i` is accepted, a claim that `j` is accepted is a claim about the commands alone (R95). -/
theorem accepts_iff_of_accepts {s : State} {i j : Instr} (acc : accepts s i) : accepts s j ↔ i = j :=
  ⟨accepts_unique acc, fun same => same ▸ acc⟩

/-- A command that meets its fault condition does fault entry and nothing else (R112). -/
theorem exec_of_faultCause {i : Instr} {s : State} (cause : faultCause i s ≠ .none) :
    exec i s = .next (raiseFault (faultCause i s) (encode i) s) := by
  rcases exec_cases i s with ⟨n, rfl, fits, -⟩ | ⟨n, rfl, fits, -⟩ | ⟨rfl, -⟩ | ⟨-, faults⟩
  · exact absurd (if_neg (Nat.not_lt.mpr fits)) cause
  · exact absurd (if_neg (Nat.not_lt.mpr fits)) cause
  · exact absurd rfl cause
  · exact faults

/-- The step that accepts such a command (R99, R112). -/
theorem step_of_faultCause {s : State} {i : Instr} (acc : accepts s i) (cause : faultCause i s ≠ .none) :
    step s = .next (raiseFault (faultCause i s) (encode i) (edgeStart s)) := by
  obtain ⟨accepted, rfl⟩ := acc
  obtain ⟨noReset, idle, valid⟩ := acceptsCommand_iff.mp accepted
  rw [step_of_accept idle noReset valid, exec_of_faultCause (by simpa using cause), faultCause_edgeStart]

/-- `FAULT` is entered by fault entry alone, at the accept of a command that meets its fault condition (R102, R110). -/
theorem eq_raiseFault_of_step {s t : State} (h : step s = .next t) (noFault : s.phase ≠ .fault)
    (fault : t.phase = .fault) :
    ∃ i, accepts s i ∧ faultCause i s ≠ .none ∧ t = raiseFault (faultCause i s) (encode i) (edgeStart s) := by
  have noReset : (currentInputs s).rst = false := Bool.eq_false_iff.mpr fun reset => by
    simp [eq_resetWith_of_step h reset] at fault
  cases edgeEffect_of_step h noReset with
  | setlen n acc fits => exact absurd fault (by simpa using noFault)
  | enc n acc fits => exact absurd fault (startPhase_ne_fault (by simpa using noFault) n)
  | encf acc => exact absurd fault (startPhase_ne_fault (by simpa using noFault) _)
  | fault i acc cause => exact ⟨i, acc, cause, rfl⟩
  | transfer c tr char =>
    have busy : (dropCycle s).phase = .busy := (dropCycle_phase s).trans (phase_of_transfers tr)
    rcases transferPhase_cases busy with ⟨phase, -⟩ | ⟨phase, -⟩ <;> simp [phase] at fault
  | stall c busy tr char => exact absurd fault noFault
  | hold notBusy acc => exact absurd fault (by simpa using noFault)

/-! ### The obligations -/

/-- Settles O26: the step into `FAULT` is fault entry with the cause of the accepted command, and the cause goes by the command. -/
theorem hardwareFaultCauses : Obligations.HardwareFaultCauses := by
  refine ⟨rfl, rfl, rfl, rfl, fun s t h noFault => ⟨⟨fun fault => ?_, ?_⟩, fun fault => ?_⟩⟩
  · obtain ⟨i, acc, cause, -⟩ := eq_raiseFault_of_step h noFault fault
    refine ⟨acc.1, ?_⟩
    simpa only [accepts_iff_of_accepts acc, acc.2] using faultCause_ne_none_iff.mp cause
  · rintro ⟨accepted, condition⟩
    have acc : accepts s (decode (currentInputs s).cmdData) := ⟨accepted, rfl⟩
    have cause : faultCause (decode (currentInputs s).cmdData) s ≠ .none :=
      faultCause_ne_none_iff.mpr (by simpa only [accepts_iff_of_accepts acc] using condition)
    obtain rfl := Host.Outcome.next.inj (h.symm.trans (step_of_faultCause acc cause))
    exact raiseFault_phase _ _ _
  · obtain ⟨i, acc, cause, rfl⟩ := eq_raiseFault_of_step h noFault fault
    simpa only [raiseFault_errcode, accepts_iff_of_accepts acc, acc.2] using faultCause_eq_iff cause

/-- Settles O27: fault entry keeps all but its four registers of the state the edge's work starts from, and that state differs from
the one before by the write port's byte. -/
theorem preciseFaults : Obligations.PreciseFaults := by
  intro s t h noFault fault
  obtain ⟨i, acc, cause, rfl⟩ := eq_raiseFault_of_step h noFault fault
  obtain ⟨noReset, idle, -⟩ := acceptsCommand_iff.mp acc.1
  have word : encode i = (currentInputs s).cmdData := by rw [← acc.2, encode_decode]
  refine ⟨raiseFault_done _ _ _, cause, word, edgeStart_len s, edgeStart_bits s, edgeStart_p s, edgeStart_outcnt s,
    edgeStart_outlog s, by simp [outValid], fun a => ?_⟩
  rw [raiseFault_buf, read_edgeStart]
  simp only [writeEffective_iff, noReset, idle, true_and, and_assoc]

end Sys2Proof.Proofs
end

section
/-! The statements on reset (spec/70_reset_and_hazards.md R122, R133): an edge with `rst = 1` is one case, whatever the state; and
what an encode has transferred when it is reset. -/

namespace Sys2Proof.Proofs

open Sys2Proof.Machine Sys2Proof.Laws

/-- A log that is the text so far is the text of the bits before the cursor, since `P = 5 * OUTCNT` (R22, R43). -/
theorem outlog_eq_streamText_cursor {s : State} (inv : s.Inv) (log : s.LogIsText) :
    s.outlog = streamText s s.p.toNat := by
  have count : s.outcnt.toNat = groupCount s.p.toNat := by
    rw [groupCount, ← inv.cursorCounts]
    omega
  rw [streamText, ← count]
  exact log

/-! ### The obligations -/

/-- Settles O8: the next state is the reset state of the block, whatever else the edge could do. -/
theorem resetEdgeFromAnywhere : Obligations.ResetEdgeFromAnywhere := by
  intro s reset
  obtain ⟨-, values, -⟩ := resetValues
  obtain ⟨phase, len, bits, p, outcnt, done, errcode, errcmd, buf, outlog⟩ := values s.cfg s.cycles.tail
  exact ⟨_, step_of_reset reset, phase, len, bits, p, outcnt, done, errcode, errcmd, buf, outlog, resetWith_cfg _ _,
    resetWith_cycles _ _⟩

/-- Settles O47: the log is the text of the bits before the cursor, and in `BUSY` the cursor has not passed the last group. -/
theorem resetMidEncode : Obligations.ResetMidEncode := by
  intro s inv busy log reset
  refine ⟨⟨_, step_of_reset reset, resetWith_phase _ _, resetWith_done _ _, resetWith_outlog _ _⟩, ?_, ?_⟩
  · rw [outlog_eq_streamText_cursor inv log]
    exact streamText_prefix s (inv.cursorBelow busy).le
  · rw [inv.logCounts]
    exact (EncodeFrom.of_busy inv log busy).busy_iff.mp busy

end Sys2Proof.Proofs
end

section
/-! The two directions of the encoding (spec/30_encoding.md R55 to R59, R63): a word is its two fields, and the decoder's rows and the
opcode table's rows are the same. -/

namespace Sys2Proof.Proofs

open Sys2Proof.Machine Sys2Proof.Laws

/-! ### The decoder and the encoder -/

/-- The fields of a well-formed row are read back as that row; opcode 0x3 takes the operand to tell its two rows apart (R57). -/
theorem decodeFields_opc_operand {i : Instr} (wf : i.wellFormed = true) : decodeFields i.opc i.operand = i := by
  cases i
  case illegalEncf x =>
    have nonzero : x ≠ 0 := bne_iff_ne.mp wf
    exact if_neg nonzero
  all_goals rfl

/-- What the decoder answers stands for a word: it names the `ILLEGAL` row of opcode 0x3 for a non-zero operand only (R57, R58). -/
theorem wellFormed_decodeFields (o : BitVec 4) (n : Operand) : (decodeFields o n).wellFormed = true := by
  rcases opc_cases o with rfl | rfl | rfl | rfl | rfl | rfl | rfl | rfl | rfl | rfl | rfl | rfl | rfl | rfl | rfl | rfl
  case inr.inr.inr.inl =>
    have three : decodeFields 0x3 n = decodeOpc3 n := rfl
    rcases decodeOpc3_cases n with ⟨-, encf⟩ | ⟨nonzero, illegal⟩
    · rw [three, encf]
      rfl
    · rw [three, illegal]
      exact bne_iff_ne.mpr nonzero
  all_goals rfl

theorem wellFormed_decode (w : Word) : (decode w).wellFormed = true := wellFormed_decodeFields _ _

/-- The word of every row meets the match and mask columns of that row (R57). -/
theorem encode_and_rowMask (i : Instr) : encode i &&& i.rowMask = i.rowMatch := by
  cases i
  case encf => exact MatchesRow.encf
  all_goals exact MatchesRow.commandWord_and_mask _ _

/-! ### The obligations -/

/-- Settles O1: the two fields of the word are the row's opcode and operand, and the decoder reads the row off them. -/
theorem decodeOfEncode : Obligations.DecodeOfEncode := by
  intro i wf
  rw [decode, encode, opcField_commandWord, operandField_commandWord, decodeFields_opc_operand wf]

/-- Settles O2: the decoder puts the two fields of the word into the row it names, and every row it names is well-formed. -/
theorem encodeOfDecode : Obligations.EncodeOfDecode := fun w => ⟨wellFormed_decode w, encode_decode w⟩

/-- Settles O4: the word is that of the row it decodes to. -/
theorem decodedRowMatchesWord : Obligations.DecodedRowMatchesWord := by
  intro w
  simpa only [encode_decode] using encode_and_rowMask (decode w)

/-- Settles O6: the decoder computes each of the nine words. -/
theorem writtenWordsDecode : Obligations.WrittenWordsDecode := by
  unfold Obligations.WrittenWordsDecode
  decide

/-- Settles O10: the step of an accept, with the state an `IDLE` edge's work starts from written out. -/
theorem stepRunsDecodedCommand : Obligations.StepRunsDecodedCommand := by
  intro s noReset idle valid
  refine ⟨wellFormed_decode _, ?_⟩
  rw [step_of_accept idle noReset valid, edgeStart_of_idle idle noReset]

end Sys2Proof.Proofs
end

section
/-! The statements on the invariant and on whole encodes (spec/10_state.md R19 to R25, spec/40_bit_group_encoder.md R76 to R82): each
effect of an edge keeps the invariant and the text of a running encode; and what an edge leaves of the model's own fields. -/

namespace Sys2Proof.Proofs

open Sys2Proof.Machine Sys2Proof.Laws

/-! ### The invariant along the other edges -/

/-- The reset state of every block meets the invariant (R33). -/
theorem inv_resetWith (c : Config) (cs : List Inputs) : (State.resetWith c cs).Inv where
  lenLegal := Nat.zero_le _
  bitsLegal := Nat.zero_le _
  cursorCounts := rfl
  cursorBelow := nofun
  bitsInBuffer := nofun
  cursorAtEnd _ := by simp [groupCount]
  doneIdle := nofun
  errcodeFault := by simp
  errcmdClear _ := rfl
  logCounts := rfl
  bufWf := nil_wf
  bufBound := nofun

/-- A length that fits keeps the invariant: in `IDLE` the bit count is no longer tied to `LEN` (R20, R96). -/
theorem inv_setLength {s : State} {n : Operand} (inv : s.Inv) (idle : s.phase = .idle) (fits : n.toNat ≤ s.cfg.maxLen) :
    (setLength n s).Inv :=
  { inv with
    lenLegal := (lengthOperand_toNat (s := s) (decide_eq_true fits)).trans_le fits
    bitsInBuffer := fun busy => absurd (idle.symm.trans busy) (by decide)
    doneIdle := fun _ => idle }

/-- Fault entry from `IDLE` keeps the invariant: the cursor stays at the end of the last encode (R21, R112). -/
theorem inv_raiseFault {s : State} {code : ErrCode} (inv : s.Inv) (idle : s.phase = .idle) (cause : code ≠ .none)
    (w : Word) : (raiseFault code w s).Inv :=
  { inv with
    cursorBelow := nofun
    bitsInBuffer := nofun
    cursorAtEnd := fun _ => inv.cursorAtEnd (by simp [idle])
    doneIdle := nofun
    errcodeFault := by simp [cause]
    errcmdClear := fun noFault => absurd rfl noFault }

/-- Every effect of an edge keeps the invariant. -/
theorem inv_of_edgeEffect {s t : State} (inv : s.Inv) (h : EdgeEffect s t) : t.Inv := by
  have start := inv_edgeStart inv
  have idle {i : Instr} (acc : accepts s i) : (edgeStart s).phase = .idle := (edgeStart_phase s).trans (phase_of_accepts acc)
  have dropped : (dropCycle s).Inv := inv_withCycles inv s.cycles.tail
  cases h with
  | setlen n acc fits => exact inv_setLength start (idle acc) (by simpa using fits)
  | enc n acc fits => exact inv_beginEncode start (idle acc) (by simpa using fits)
  | encf acc => exact inv_beginEncode start (idle acc) (by simp [fullBits_toNat])
  | fault i acc cause => exact inv_raiseFault start (idle acc) cause _
  | transfer c tr char => exact inv_transfer dropped ((dropCycle_phase s).trans (phase_of_transfers tr)) c
  | stall c busy tr char => exact dropped
  | hold notBusy acc => exact start

/-! ### The text of a running encode -/

/-- Outside `BUSY` every character of the last encode has been transferred (R82). -/
theorem outcnt_of_not_busy {s : State} (inv : s.Inv) (notBusy : s.phase ≠ .busy) :
    s.outcnt.toNat = groupCount s.bits.toNat := by
  have counts := inv.cursorCounts
  have atEnd := inv.cursorAtEnd notBusy
  omega

/-- A reset leads to `IDLE`, so that an edge to `BUSY` is none (R122). -/
theorem rst_of_step_to_busy {s t : State} (next : step s = .next t) (busy : t.phase = .busy) :
    (currentInputs s).rst = false :=
  Bool.eq_false_iff.mpr fun reset => by simp [eq_resetWith_of_step next reset] at busy

/-- An edge that enters `BUSY` starts an encode, with nothing transferred and the log empty (R76, R88). -/
theorem logIsText_of_enters_busy {s t : State} (notBusy : s.phase ≠ .busy) (next : step s = .next t)
    (busy : t.phase = .busy) : t.LogIsText := by
  have noReset := rst_of_step_to_busy next busy
  cases edgeEffect_of_step next noReset with
  | setlen n acc fits => exact absurd busy (by simpa using notBusy)
  | enc _ _ _ | encf _ => rfl
  | fault i acc cause => simp at busy
  | transfer c tr char => exact absurd (phase_of_transfers tr) notBusy
  | stall c busy tr char => exact absurd busy notBusy
  | hold notBusy acc => exact absurd busy (by simpa using notBusy)

/-! ### The model's own fields -/

/-- An edge without reset uses up one entry of the schedule and keeps the parameters (log entries 1 and 2). -/
theorem cycles_cfg_of_edgeEffect {s t : State} (h : EdgeEffect s t) : t.cycles = s.cycles.tail ∧ t.cfg = s.cfg := by
  cases h with
  | setlen _ _ _ | enc _ _ _ | encf _ | fault _ _ _ | hold _ _ => exact ⟨edgeStart_cycles s, edgeStart_cfg s⟩
  | transfer _ _ _ | stall _ _ _ _ => exact ⟨dropCycle_cycles s, dropCycle_cfg s⟩

/-! ### The obligations -/

/-- Settles O41: a reset leads to the reset state, and every other edge has an effect that keeps the invariant. -/
theorem stepKeepsInvariant : Obligations.StepKeepsInvariant := by
  intro s t inv next
  cases reset : (currentInputs s).rst with
  | true => exact eq_resetWith_of_step next reset ▸ inv_resetWith _ _
  | false => exact inv_of_edgeEffect inv (edgeEffect_of_step next reset)

/-- Settles O43: an edge from `BUSY` is an edge of the encode that stands there, and any other can only start one. -/
theorem stepKeepsEncodeText : Obligations.StepKeepsEncodeText := by
  intro s t inv log next
  by_cases busy : s.phase = .busy
  · have encode (noReset : (currentInputs s).rst = false) : EncodeFrom s t :=
      ((EncodeFrom.of_busy inv (log busy) busy).of_step busy noReset next).1
    refine ⟨fun stays => ?_, fun _ noReset idle => ?_⟩
    · exact (encode (rst_of_step_to_busy next stays)).log
    · have enc := encode noReset
      have count := outcnt_of_not_busy enc.inv (by simp [idle])
      exact ⟨enc.outlog_of_idle idle, enc.bits ▸ count, enc.encodeEnded_of_idle idle⟩
  · exact ⟨logIsText_of_enters_busy busy next, fun isBusy => absurd isBusy busy⟩

/-- Settles O45: the run ends in a state of the encode that the accept starts, and outside `BUSY` the counters are at their ends. -/
theorem encodeRunsToItsText : Obligations.EncodeRunsToItsText := by
  intro s n inv acc fits allWritten inputs
  obtain ⟨t, run, enc, idle⟩ := encode_runs_of_accepts inv acc fits allWritten inputs
  have bits : t.bits = n := enc.bits
  have notBusy : t.phase ≠ .busy := by simp [idle]
  have text : t.outlog = streamText (edgeStart s) n.toNat := by
    rw [enc.outlog_of_idle idle, beginEncode_bits]
    exact streamText_congr (beginEncode_len n _) (fun _ _ => rfl) _
  exact ⟨t, run, enc.encodeEnded_of_idle idle, text, bits, enc.len.trans (edgeStart_len s), enc.buf,
    bits ▸ enc.inv.cursorAtEnd notBusy, bits ▸ outcnt_of_not_busy enc.inv notBusy⟩

/-- Settles O18: a reset keeps the two fields as every other edge does. -/
theorem scheduleAdvances : Obligations.ScheduleAdvances := by
  intro s t next
  cases reset : (currentInputs s).rst with
  | true =>
    rw [eq_resetWith_of_step next reset]
    exact ⟨resetWith_cycles _ _, resetWith_cfg _ _⟩
  | false => exact cycles_cfg_of_edgeEffect (edgeEffect_of_step next reset)

/-- Settles O9: nothing is transferred at reset, so that the log is empty and is the empty text. -/
theorem resetMeetsInvariant : Obligations.ResetMeetsInvariant :=
  fun c cs => ⟨inv_resetWith c cs, nofun, rfl⟩

end Sys2Proof.Proofs
end

section
/-! The statements on the commands' frames and effects in `IDLE` (spec/10_state.md R16, spec/41_full_byte_encoder.md R88,
spec/42_sequencer_and_control.md R97): what each kind of command leaves unchanged, `ENCF`, the `ILLEGAL` rows. -/

namespace Sys2Proof.Proofs

open Sys2Proof.Machine Sys2Proof.Laws

/-! ### Commands that meet their condition -/

theorem faultCause_setlen_of_fits {s : State} {n : Operand} (fits : n.toNat ≤ s.cfg.maxLen) :
    faultCause (.setlen n) s = .none := if_neg (Nat.not_lt.mpr fits)

theorem faultCause_enc_of_fits {s : State} {n : Operand} (fits : n.toNat ≤ bufferBits s) :
    faultCause (.enc n) s = .none := if_neg (Nat.not_lt.mpr fits)

theorem fullBits_ne_zero {s : State} (nonempty : s.len ≠ 0) : fullBits s ≠ 0 := mt fullBits_eq_zero_iff.mp nonempty

/-! ### The obligations -/

/-- Settles O28: a command sets the length, starts an encode or does fault entry, and each of the three names the fields it writes. -/
theorem commandFrame : Obligations.CommandFrame := by
  intro i s t h
  rcases exec_cases i s with ⟨n, rfl, fits, e⟩ | ⟨n, rfl, fits, e⟩ | ⟨rfl, e⟩ | ⟨cause, e⟩ <;>
    obtain rfl := Host.Outcome.next.inj (e.symm.trans h)
  · simp [faultCause_setlen_of_fits fits]
  · simp [faultCause_enc_of_fits fits]
  · simp [faultCause]
  · simp [cause]

/-- Settles O21: the encode of `8 * LEN` bits is the empty one exactly on the empty buffer. -/
theorem encfEffect : Obligations.EncfEffect := by
  intro s idle
  refine ⟨fun nonempty => ?_, fun empty => ?_, fullBits_toNat s⟩
  · have nonzero := fullBits_ne_zero nonempty
    rw [exec_encf, beginEncode, startPhase_of_ne_zero nonzero, startDone_of_ne_zero nonzero]
    rfl
  · rw [exec_encf, fullBits_eq_zero_iff.mpr empty]
    rfl

/-- Settles O24: all fourteen rows do fault entry with their own word, and fault entry writes four registers. -/
theorem illegalRowsFault : Obligations.IllegalRowsFault := fun _ s _ illegal => exec_of_isIllegal illegal s

end Sys2Proof.Proofs
end

section
/-! The statements on the output step (spec/20_memory.md R37, R45, spec/40_bit_group_encoder.md R71, R77 to R80, R85): what it reads and
where it stops, a transfer and a stall, and the examples of an encode's tail. -/

namespace Sys2Proof.Proofs

open Sys2Proof.Machine Sys2Proof.Laws

/-! ### The character and the read set -/

theorem byteIndex_mem_readSet (s : State) : byteIndex s ∈ readSet s := by
  unfold readSet
  split <;> simp

/-- A read of the buffer depends on the byte it names alone (R36). -/
theorem bufRead_withBuf {s : State} {m : Memory} {i : Nat} (byte : Memory.read m i = Memory.read s.buf i) :
    bufRead { s with buf := m } i = bufRead s i := by
  simp only [bufRead, byte]

/-- The second byte is read exactly where the read set holds it (R77, R85). -/
theorem secondByte_withBuf {s : State} {m : Memory}
    (agree : ∀ i ∈ readSet s, Memory.read m i = Memory.read s.buf i) :
    secondByte { s with buf := m } = secondByte s := by
  by_cases both : (crosses (bitOffset s) && hasNext s) = true
  · have next := bufRead_withBuf (agree (byteIndex s + 1) (by simp [readSet, both]))
    exact (if_pos both).trans (next.trans (if_pos both).symm)
  · exact (if_neg both).trans (if_neg both).symm

theorem currentGroup_withBuf {s : State} {m : Memory}
    (agree : ∀ i ∈ readSet s, Memory.read m i = Memory.read s.buf i) :
    currentGroup { s with buf := m } = currentGroup s := by
  have first : bufRead { s with buf := m } (byteIndex { s with buf := m }) = bufRead s (byteIndex s) :=
    bufRead_withBuf (agree _ (byteIndex_mem_readSet s))
  unfold currentGroup
  rw [first, secondByte_withBuf agree]
  rfl

/-! ### Where the output step stops -/

/-- A read below `MAX_LEN` answers the byte where it is written, and else stops with its index (R36, R45). -/
theorem bufRead_cases {s : State} {i : Nat} (below : i < s.cfg.maxLen) :
    (written s i = true ∧ ∃ b, bufRead s i = .ok b) ∨ (written s i = false ∧ bufRead s i = .error (.uninitRead i)) := by
  cases byte : Memory.read s.buf i with
  | some b => exact .inl ⟨by simp [written, byte], b, bufRead_ok.mpr ⟨below, byte⟩⟩
  | none => exact .inr ⟨by simp [written, byte], bufRead_error.mpr (.inr ⟨below, byte, rfl⟩)⟩

/-- The character at the cursor fails as its group does (R72). -/
theorem currentChar_error {s : State} {f : Fault} : currentChar s = .error f ↔ currentGroup s = .error f := by
  unfold currentChar
  cases currentGroup s <;> simp

/-- The group at the cursor fails as the first of its two reads that does (R77, R85). -/
theorem currentGroup_error {s : State} {f : Fault} :
    currentGroup s = .error f ↔
      bufRead s (byteIndex s) = .error f ∨ ((∃ b, bufRead s (byteIndex s) = .ok b) ∧ secondByte s = .error f) := by
  unfold currentGroup
  cases bufRead s (byteIndex s) <;> cases secondByte s <;> simp

/-- The first byte of the read set that is unwritten. -/
def firstUnwritten (s : State) : Option Nat := (readSet s).find? (fun k => !written s k)

/-- In `BUSY` the character fails exactly with the first unwritten byte of the read set (R45, R85). -/
theorem currentChar_error_iff {s : State} (inv : s.Inv) (busy : s.phase = .busy) {f : Fault} :
    currentChar s = .error f ↔ ∃ i, firstUnwritten s = some i ∧ f = .uninitRead i := by
  have read {i : Nat} (mem : i ∈ readSet s) := bufRead_cases ((lt_len_of_mem_readSet inv busy mem).trans_le inv.lenLegal)
  rw [currentChar_error, currentGroup_error, firstUnwritten]
  by_cases both : (crosses (bitOffset s) && hasNext s) = true
  · have reads : readSet s = [byteIndex s, byteIndex s + 1] := if_pos both
    have second : secondByte s = bufRead s (byteIndex s + 1) := if_pos both
    rw [second, reads]
    rcases read (byteIndex_mem_readSet s) with ⟨w0, b0, r0⟩ | ⟨w0, r0⟩
    · rcases read (i := byteIndex s + 1) (by simp [reads]) with ⟨w1, b1, r1⟩ | ⟨w1, r1⟩
      · simp [w0, r0, w1, r1]
      · simp [w0, r0, w1, r1, eq_comm]
    · simp [w0, r0, eq_comm]
  · have reads : readSet s = [byteIndex s] := if_neg both
    have second : secondByte s = .ok 0 := if_neg both
    rw [second, reads]
    rcases read (byteIndex_mem_readSet s) with ⟨w0, b0, r0⟩ | ⟨w0, r0⟩
    · simp [w0, r0]
    · simp [w0, r0, eq_comm]

/-- A step answers a next state, but for an output step whose character fails (R110, R111). -/
theorem step_cases (s : State) :
    (∃ t, step s = .next t) ∨
      (s.phase = .busy ∧ (currentInputs s).rst = false ∧ ∃ f, currentChar s = .error f ∧ step s = .fault f) := by
  cases reset : (currentInputs s).rst with
  | true => exact .inl ⟨_, step_of_reset reset⟩
  | false =>
    cases phase : s.phase with
    | idle =>
      cases valid : (currentInputs s).cmdValid with
      | true =>
        rw [step_of_accept phase reset valid]
        rcases exec_cases (decode (currentInputs s).cmdData) (edgeStart s) with ⟨_, _, _, e⟩ | ⟨_, _, _, e⟩ | ⟨_, e⟩ | ⟨_, e⟩
        all_goals exact .inl ⟨_, e⟩
      | false => exact .inl ⟨_, step_of_idle_of_no_word phase reset valid⟩
    | busy =>
      rw [step_of_busy phase reset]
      cases char : currentChar s with
      | ok c => exact .inl ⟨_, rfl⟩
      | error f => exact .inr ⟨rfl, rfl, f, rfl, rfl⟩
    | fault => exact .inl ⟨_, step_of_fault phase reset⟩

/-- A step stops exactly where it is an output step whose character fails (R110, R111). -/
theorem step_eq_fault_iff {s : State} {f : Fault} :
    step s = .fault f ↔ s.phase = .busy ∧ (currentInputs s).rst = false ∧ currentChar s = .error f := by
  constructor
  · intro stops
    rcases step_cases s with ⟨t, next⟩ | ⟨busy, noReset, g, char, stops'⟩
    · simp [next] at stops
    · obtain rfl := Host.Outcome.fault.inj (stops'.symm.trans stops)
      exact ⟨busy, noReset, char⟩
  · rintro ⟨busy, noReset, char⟩
    rw [step_of_busy busy noReset, char]

/-! ### A stall -/

/-- In `BUSY` without reset and with `out_ready = 0` a step that goes on only uses its inputs up (R78). -/
theorem eq_dropCycle_of_stall {s t : State} (busy : s.phase = .busy) (noReset : (currentInputs s).rst = false)
    (notReady : (currentInputs s).outReady = false) (next : step s = .next t) : t = dropCycle s := by
  have noTransfer : transfers s = false := by simp [transfers, notReady]
  cases edgeEffect_of_step next noReset with
  | setlen _ acc _ | enc _ acc _ | encf acc | fault _ acc _ => exact absurd acc (not_accepts_of_busy busy)
  | transfer c tr char => simp [noTransfer] at tr
  | stall c _ tr char => rfl
  | hold notBusy acc => exact absurd busy notBusy

/-- No output port shows the schedule (R61). -/
theorem outputs_dropCycle (s : State) : outputs (dropCycle s) = outputs s := by
  have char : currentChar (dropCycle s) = currentChar s := currentChar_congr rfl rfl rfl rfl
  simp only [outputs, outData, char]
  rfl

/-! ### An encode of two groups -/

/-- The character at the cursor from the two bytes its group is taken from (R71, R72). -/
theorem currentChar_of_bytes {s : State} {b0 b1 : Byte} (first : bufRead s (byteIndex s) = .ok b0)
    (second : secondByte s = .ok b1) :
    currentChar s = .ok (lut (groupExtract b0 b1 (hasNext s) (bitOffset s))) :=
  currentChar_ok.mpr ⟨_, currentGroup_ok.mpr ⟨b0, b1, first, second, rfl⟩, rfl⟩

/-- Two `BUSY` edges at which the host drives nothing transfer the last two characters of an encode (R64, R78). -/
theorem last_two_transfers {s : State} {c0 c1 : Byte} (busy : s.phase = .busy)
    (cycles : s.cycles = [Inputs.inactive, Inputs.inactive]) (more : s.p.toNat + 5 < s.bits.toNat)
    (last : s.bits.toNat ≤ (s.p + 5).toNat + 5) (char0 : currentChar s = .ok c0)
    (char1 : currentChar { s with p := s.p + 5 } = .ok c1) :
    ∃ t, runSteps 2 s = .next t ∧ t.outlog = s.outlog ++ [c0] ++ [c1] ∧ encodeEnded t = true := by
  have inactive {u : State} {cs : List Inputs} (h : u.cycles = Inputs.inactive :: cs) : currentInputs u = Inputs.inactive := by
    simp [currentInputs, inputsAt, h]
  have inputs := inactive cycles
  have first : step s = .next (transfer c0 (dropCycle s)) :=
    step_of_transfers busy (by rw [inputs]; rfl) (by rw [inputs]; rfl) char0
  have notLast : lastTransfer (dropCycle s) = false := decide_eq_false (Nat.not_le.mpr more)
  have busy' : (transfer c0 (dropCycle s)).phase = .busy := (transferPhase_of_not_last notLast).trans busy
  have inputs' : currentInputs (transfer c0 (dropCycle s)) = Inputs.inactive := inactive (cs := []) (by simp [cycles])
  have char1' : currentChar (transfer c0 (dropCycle s)) = .ok c1 := (currentChar_congr rfl rfl rfl rfl).trans char1
  have second := step_of_transfers busy' (by rw [inputs']; rfl) (by rw [inputs']; rfl) char1'
  have isLast : lastTransfer (dropCycle (transfer c0 (dropCycle s))) = true := lastTransfer_iff.mpr last
  refine ⟨_, by rw [runSteps_succ first, runSteps_succ second, runSteps], rfl, ?_⟩
  exact encodeEnded_iff.mpr
    ⟨transferPhase_of_last isLast, by rw [transfer_done, transferDone_eq_or, isLast, Bool.true_or]⟩

/-- `ENC n` of two groups, offered alone, transfers the characters at the cursors 0 and 5 and ends (R76, R78). -/
theorem encode_two_groups {s : State} {n : Operand} {c0 c1 : Byte} (idle : s.phase = .idle)
    (cycles : s.cycles = [offerInputs (encode (.enc n)), Inputs.inactive, Inputs.inactive])
    (fits : n.toNat ≤ bufferBits s) (more : 5 < n.toNat) (last : n.toNat ≤ 10)
    (char0 : currentChar { s with p := 0 } = .ok c0) (char1 : currentChar { s with p := 5 } = .ok c1) :
    ∃ t, runSteps 3 s = .next t ∧ t.outlog = [c0, c1] ∧ encodeEnded t = true := by
  have nonzero : n ≠ 0 := by
    rintro rfl
    simp at more
  have inputs : currentInputs s = offerInputs (encode (.enc n)) := by simp [currentInputs, inputsAt, cycles]
  have start : edgeStart s = dropCycle s := edgeStart_of_not_writeEffective (by rw [inputs]; rfl)
  have accept : step s = .next (beginEncode n (dropCycle s)) := by
    rw [step_of_accept idle (by rw [inputs]; rfl) (by rw [inputs]; rfl), inputs, start, offerInputs, decode_encode_enc]
    exact exec_enc_of_fits fits
  rw [runSteps_succ accept]
  exact last_two_transfers (s := beginEncode n (dropCycle s)) (startPhase_of_ne_zero nonzero _) (by simp [cycles]) more last
    ((currentChar_congr rfl rfl rfl rfl).trans char0) ((currentChar_congr rfl rfl rfl rfl).trans char1)

/-! ### The bytes of the examples -/

/-- At cursor 0 the group is in the first byte: for `FF` the character is `9`. -/
theorem currentChar_of_FF_at_zero {s : State} (p : s.p = 0) (byte : Memory.read s.buf 0 = some 0xFF) :
    currentChar s = .ok 0x39 := by
  have index : byteIndex s = 0 := by simp [byteIndex, p]
  have offset : bitOffset s = 0 := by simp [bitOffset, p]
  have first : bufRead s (byteIndex s) = .ok 0xFF := bufRead_ok.mpr (index ▸ ⟨(maxLen_bounds s.cfg).1, byte⟩)
  have second : secondByte s = .ok 0 := by simp [secondByte, crosses, offset]
  rw [currentChar_of_bytes first second, offset]
  cases hasNext s <;> rfl

/-- At cursor 5 the group of `FF FF` is five ones, `9`: the bits past `BITS` are not masked (R79). -/
theorem currentChar_of_FF_FF_at_five {s : State} (p : s.p = 5) (len : s.len = 2) (fits : 2 ≤ s.cfg.maxLen)
    (byte0 : Memory.read s.buf 0 = some 0xFF) (byte1 : Memory.read s.buf 1 = some 0xFF) : currentChar s = .ok 0x39 := by
  have index : byteIndex s = 0 := by simp [byteIndex, p]
  have offset : bitOffset s = 5 := by simp [bitOffset, p]
  have next : hasNext s = true := by simp [hasNext, index, len]
  have first : bufRead s (byteIndex s) = .ok 0xFF := bufRead_ok.mpr (index ▸ ⟨by omega, byte0⟩)
  have second : secondByte s = .ok 0xFF := by
    rw [secondByte, offset, next, index]
    exact bufRead_ok.mpr ⟨fits, byte1⟩
  rw [currentChar_of_bytes first second, next, offset]
  rfl

/-- At cursor 5 of the one byte `FF` zeros stand past the buffer's end: three ones and two zeros, `h` (R80). -/
theorem currentChar_of_FF_end_at_five {s : State} (p : s.p = 5) (len : s.len = 1)
    (byte : Memory.read s.buf 0 = some 0xFF) : currentChar s = .ok 0x68 := by
  have index : byteIndex s = 0 := by simp [byteIndex, p]
  have offset : bitOffset s = 5 := by simp [bitOffset, p]
  have noNext : hasNext s = false := by simp [hasNext, index, len]
  have first : bufRead s (byteIndex s) = .ok 0xFF := bufRead_ok.mpr (index ▸ ⟨(maxLen_bounds s.cfg).1, byte⟩)
  have second : secondByte s = .ok 0 := by simp [secondByte, noNext]
  rw [currentChar_of_bytes first second, noNext, offset]
  rfl

/-! ### The obligations -/

/-- Settles O32: the slice of the two bytes, the first above the second. -/
theorem groupIsFiveBits : Obligations.GroupIsFiveBits := groupExtract_eq_slice

/-- Settles O38: the group depends on the read set alone, and the character on the group. -/
theorem charDependsOnReadSet : Obligations.CharDependsOnReadSet := by
  intro s m agree
  unfold currentChar
  rw [currentGroup_withBuf agree]

/-- Settles O39: the step goes on where the cursor has a character, and stops with the failing read otherwise. -/
theorem uninitReadExactly : Obligations.UninitReadExactly := by
  intro s inv busy noReset
  refine ⟨fun allWritten => ?_, fun i => ?_⟩
  · obtain ⟨c, char⟩ := exists_currentChar_of_written inv busy allWritten
    exact ⟨_, by rw [step_of_busy busy noReset, char]⟩
  · rw [step_eq_fault_iff, currentChar_error_iff inv busy]
    simp [busy, noReset, firstUnwritten]

/-- Settles O40: a step that answers no next state is an output step that reads an unwritten byte of the buffer. -/
theorem onlyUninitReadStops : Obligations.OnlyUninitReadStops := by
  intro s inv
  refine ⟨fun r => ?_, fun f stops => ?_, fun busy => ?_⟩
  · rcases step_cases s with ⟨t, next⟩ | ⟨-, -, f, -, stops⟩
    · simp [next]
    · simp [stops]
  · obtain ⟨busy, noReset, char⟩ := step_eq_fault_iff.mp stops
    obtain ⟨i, first, rfl⟩ := (currentChar_error_iff inv busy).mp char
    have unwritten : written s i = false := by simpa using List.find?_some first
    exact ⟨busy, noReset, i, rfl, lt_len_of_mem_readSet inv busy (List.mem_of_find?_eq_some first), unwritten⟩
  · have legal := inv.bitsLegal
    have small := (maxLen_bounds s.cfg).2
    have below := inv.cursorBelow busy
    have counts := inv.cursorCounts
    omega

/-- Settles O30: a transfer or a stall, and the transfer by whether it is the last. -/
theorem outputStepEffect : Obligations.OutputStepEffect := by
  intro s c busy noReset char
  refine ⟨fun stall => ?_, fun ready ends => ?_, fun ready more => ?_⟩
  · rw [step_of_busy busy noReset, char, stall]
    rfl
  · have last : lastTransfer (dropCycle s) = true := lastTransfer_iff.mpr ends
    rw [step_of_transfers busy noReset ready char, transfer, transferPhase_of_last last, transferDone_eq_or, last]
    rfl
  · have notLast : lastTransfer (dropCycle s) = false := decide_eq_false (Nat.not_le.mpr more)
    rw [step_of_transfers busy noReset ready char, transfer, transferPhase_of_not_last notLast, transferDone_eq_or, notLast]
    rfl

/-- Settles O31: the step only uses its inputs up, and no output port shows those. -/
theorem stalledOutputStable : Obligations.StalledOutputStable := by
  intro s t busy noReset notReady next
  rw [eq_dropCycle_of_stall busy noReset notReady next, outputs_dropCycle]

/-- Settles O48: both encodes are of two groups, at the cursors 0 and 5. -/
theorem tailExamples : Obligations.TailExamples := by
  refine ⟨fun s idle len fits byte0 byte1 cycles => ?_, fun s idle len byte cycles => ?_⟩
  · have word : encode (.enc 7) = 0x20000007 := by decide
    exact encode_two_groups (n := 7) idle (word ▸ cycles) (by simp [bufferBits, len]) (by decide) (by decide)
      (currentChar_of_FF_at_zero rfl byte0) (currentChar_of_FF_FF_at_five rfl len fits byte0 byte1)
  · have word : encode (.enc 8) = 0x20000008 := by decide
    exact encode_two_groups (n := 8) idle (word ▸ cycles) (by simp [bufferBits, len]) (by decide) (by decide)
      (currentChar_of_FF_at_zero rfl byte) (currentChar_of_FF_end_at_five rfl len byte)

end Sys2Proof.Proofs
end

section
/-! The statements on the host script (spec/30_encoding.md R64, R65): the cycles of the host's actions, and the actions of
`LOAD` and `ENCODE_BYTES`. -/

namespace Sys2Proof.Proofs

open Sys2Proof.Machine Sys2Proof.Laws

/-! ### One cycle of a script -/

/-- An action other than `DRAIN` takes a cycle in every state (R64). -/
theorem scriptCycle_of_ne_drain {a : HostAction} (h : a ≠ .drain) (s : State) (rest : List HostAction) :
    scriptCycle s (a :: rest) = some (a.inputs, if a.overAfterCycle s then rest else a :: rest) :=
  if_neg fun drains => h drains.1

/-- `DRAIN` takes a cycle in `BUSY` and stays (R64). -/
theorem scriptCycle_drain_of_busy {s : State} (busy : s.phase = .busy) (rest : List HostAction) :
    scriptCycle s (.drain :: rest) = some (Inputs.inactive, .drain :: rest) :=
  if_neg fun drains => drains.2 busy

/-- `DRAIN` is over outside `BUSY` (log entry 13). -/
theorem scriptCycle_drain_of_not_busy {s : State} (notBusy : s.phase ≠ .busy) (rest : List HostAction) :
    scriptCycle s (.drain :: rest) = scriptCycle s rest :=
  if_pos ⟨rfl, notBusy⟩

/-! ### `LOAD` -/

/-- Entry `k` of a `LOAD` at `a` writes byte `k` at `a + k`, the sum in the width of an address (R65, log entry 13). -/
theorem getElem?_loadBytes (bs : List Byte) : ∀ (a : BufAddr) (k : Nat),
    (loadBytes a bs)[k]? = bs[k]?.map (fun b => HostAction.wr (a + BitVec.ofNat 24 k) b) := by
  induction bs with
  | nil => exact fun _ _ => rfl
  | cons b bs ih =>
    intro a k
    cases k with
    | zero => simp [loadBytes]
    | succ k =>
      have address : a + 1 + BitVec.ofNat 24 k = a + BitVec.ofNat 24 (k + 1) := by
        rw [BitVec.add_assoc, Nat.add_comm k 1, BitVec.ofNat_add]
        rfl
      rw [loadBytes, List.getElem?_cons_succ, List.getElem?_cons_succ, ih, address]

/-! ### The obligations -/

/-- Settles O49: `DRAIN` by the phase, and every other action by its own inputs and its own end. -/
theorem scriptActions : Obligations.ScriptActions := by
  intro s rest
  refine ⟨fun a b => scriptCycle_of_ne_drain (a := .wr a b) nofun s rest, fun w => ?_,
    fun busy => scriptCycle_drain_of_busy busy rest, fun notBusy => scriptCycle_drain_of_not_busy notBusy rest,
    _, scriptCycle_of_ne_drain (a := .reset) nofun s rest, rfl⟩
  rw [scriptCycle_of_ne_drain (a := .cmd w) nofun]
  simp only [HostAction.overAfterCycle, cmdReady_iff]
  rfl

/-- Settles O50: `LOAD` by induction on its bytes; the two command words are the assembler's. -/
theorem scriptPseudoActions : Obligations.ScriptPseudoActions := by
  refine ⟨fun a bs k => getElem?_loadBytes bs a k, fun bs short => ?_⟩
  have encf : encode .encf = 0x30000000#32 := by decide
  rw [encodeBytes, encode_setlen, setWidth_ofNat_of_lt short, encf]

end Sys2Proof.Proofs
end
